-- ==== Sys2Proof/Word.lean ====
section
/-! DEFINITION. The word types of the machine: bytes, instruction words, addresses, register numbers,
and the three widths an element can have (spec/00_scope.md R6, spec/10_state.md R11 to R13). -/

namespace Sys2Proof

/-- One byte of the program text. -/
abbrev Byte := BitVec 8

/-- One 32-bit instruction word (R29). -/
abbrev Word := BitVec 32

/-- A 64-bit instruction address (R19, R24). -/
abbrev Addr := BitVec 64

/-- The number of a scalable vector register, `Z0` to `Z31` (R11; `NZ = 32`, R5). -/
abbrev ZReg := Fin 32

/-- The number of a scalable predicate register, `P0` to `P15` (R13; `NP = 16`, R5). -/
abbrev PReg := Fin 16

/-- The width of a source integer, of a floating-point result or of an element: the suffixes `.H`, `.S`
and `.D` of the assembler templates (R33, R38). -/
inductive ElemSize where
  /-- 16 bits -/
  | h
  /-- 32 bits -/
  | s
  /-- 64 bits -/
  | d
deriving DecidableEq, Repr

/-- The width in bits (R9: `esize`, `s_esize`, `d_esize`). -/
def ElemSize.bits : ElemSize → Nat
  | .h => 16
  | .s => 32
  | .d => 64

end Sys2Proof
end

