-- ==== Sys2Proof/Config.lean ====
section
/-! DEFINITION. The run parameters of spec/00_scope.md R5: what the spec leaves to the implementation and
to software outside it, constant over a run. They stand in the state (field `cfg`), so that a statement
about every state is a statement about every legal value of them (log entry 1). -/

namespace Sys2Proof

/-- The outcome of `CheckSVEEnabled()` (R5, R78). `info` is a number the model never looks into: the spec
gives it no structure (DESIGN CHOICE, safe; log entry 19). -/
inductive SveAccess where
  /-- the access check passes -/
  | allowed
  /-- the instruction is UNDEFINED at this access -/
  | undefined
  /-- the access is trapped -/
  | trapped (info : Nat)
deriving DecidableEq, Repr

/-- Whether the implementation supports trapped floating-point exceptions (R5, R70, U4). -/
inductive FpTraps where
  | notSupported
  | supported
deriving DecidableEq, Repr

/-- The run parameters of R5. `zero_upper` is not among them: with `VL` constant nothing can observe it
(R16, D10; log entry 21). The program text is the state's field `text`. -/
structure Config where
  /-- `VL DIV 128 - 1`: the legal vector lengths are the multiples of 128 from 128 to 2048 (R5, R14). -/
  vlq : Fin 16
  /-- `feat_sve` -/
  featSve : Bool
  /-- `feat_sme` -/
  featSme : Bool
  /-- `feat_sve2p2` -/
  featSve2p2 : Bool
  /-- `feat_sme2p2` -/
  featSme2p2 : Bool
  /-- `sve_access` -/
  sveAccess : SveAccess
  /-- `fp_traps` -/
  fpTraps : FpTraps
  /-- `entry`, the address of the first instruction -/
  entry : Addr
  /-- `end_pc`, the address at which a run is over (R90) -/
  endPc : Addr
deriving DecidableEq, Repr

/-- `VL = CurrentVL`, the vector length in bits (R14). -/
def Config.vl (c : Config) : Nat := 128 * (c.vlq.val + 1)

/-- `PL = VL DIV 8`, the predicate length in bits (R13, R14). -/
def Config.pl (c : Config) : Nat := c.vl / 8

/-- The configuration `State.reset` has: the launch configuration of spec/95_test_vectors.md L3 with an empty
program (`VL = 128`, all four features, access allowed, no trapped exceptions, `entry = 0x1000` and `end_pc`
just after the last word). DESIGN CHOICE, unsafe for a claim about the run from `State.reset` alone: R5 leaves
these to the implementation (log entries 1 and 6). -/
def Config.default : Config where
  vlq := 0
  featSve := true
  featSme := true
  featSve2p2 := true
  featSme2p2 := true
  sveAccess := .allowed
  fpTraps := .notSupported
  entry := 0x1000
  endPc := 0x1000

end Sys2Proof
end

