-- ==== Sys2Proof/Machine/State.lean ====
section
/-! DEFINITION. The state of the machine, as spec/10_state.md R10 lists it, the reasons a step can stop
(spec/60_exceptions.md R74), and the state after reset (R22, R85). -/

namespace Sys2Proof.Machine

/-- The machine stops with a fault: the hardware takes a synchronous exception here. The spec enters no handler
and saves nothing (R74, R82), so a fault is terminal. Safe: the model stops where the hardware goes on. -/
inductive Fault where
  /-- Undefined Instruction, raised by every instruction whose feature pair is not implemented (R35, R77) and
  by the SVE access check when it answers UNDEFINED (R78). `w` is the instruction word. Safe. -/
  | undefinedInstruction (w : Word)
  /-- The SVE access check traps: raised by every instruction when `sve_access` is `Trapped(info)` (R78). Safe. -/
  | sveAccess (info : Nat)
deriving DecidableEq, Repr

/-- The spec gives the situation no meaning (R74), or there is no step to make (R90). Safe, each of them: the
model stops where the hardware may go on. -/
inductive Refusal where
  /-- An instruction that has no meaning yet. Raised by no arm of `exec`. Safe. -/
  | notModelled (mnemonic : String)
  /-- A word that is none of the 14 encodings; raised by `step` after the fetch (R37). Safe. -/
  | notInScope (w : Word)
  /-- A MOVPRFX that this instruction may not follow: CONSTRAINED UNPREDICTABLE (R61 (c) and (d), R80, U1).
  Raised by every instruction, before anything else. Safe. -/
  | movprfxUnpredictable
  /-- Inexact or Overflow arose in an active element while its trap is enabled (R70, R79). Raised by every
  instruction. Safe. -/
  | trappedFP
  /-- `pc + 4` does not fit in 64 bits (R19, D9). Raised by every instruction when it would complete. Safe. -/
  | pcWrap
  /-- `pc = end_pc`: the run is over and there is no further step (R90). Raised by `step`. Safe. -/
  | runOver
  /-- `pc` is outside the program text: the agent is stuck (R24, R90, U10). Raised by `step`. Safe. -/
  | stuck
deriving DecidableEq, Repr

/-- The component `outcome` of R10: how the run stands (R74). -/
inductive RunOutcome where
  | running
  | fault (r : Fault)
  | refused (r : Refusal)
deriving DecidableEq, Repr

/-- The predicate part of a MOVPRFX (R21): its governing predicate, its element size in bits, and whether it
zeroes inactive elements. -/
structure PrefixPredicate where
  pg : PReg
  esize : Nat
  zeroing : Bool
deriving DecidableEq, Repr

/-- The MOVPRFX that was the previous instruction in program order (R21). -/
structure MovPrefix where
  /-- `None` for an unpredicated MOVPRFX -/
  pred : Option PrefixPredicate
  zd : ZReg
  zn : ZReg
deriving DecidableEq, Repr

/-- Memory, of which this machine has only its program text: pairs of an address and a byte. The canonical form
is `Memory.wf` (Machine/Memory.lean); an address not listed holds no value (R24; log entry 17). -/
abbrev Memory := List Host.Cell

/-- The state tuple of R10, with the run parameters of R5 beside it. A register file's width is the current
vector length's, exactly (R11, R13, R16, D10). -/
structure State where
  /-- the run parameters; no instruction writes them (R10, R94) -/
  cfg : Config
  /-- `Z[0..31]`, each `bits(VL)` (R11) -/
  z : Vector (BitVec cfg.vl) 32
  /-- `P[0..15]`, each `bits(PL)` (R13) -/
  p : Vector (BitVec cfg.pl) 16
  /-- `FPCR` (R17) -/
  fpcr : BitVec 64
  /-- `FPSR` (R18) -/
  fpsr : BitVec 64
  /-- the program counter (R19) -/
  pc : Addr
  /-- the latch `prefix` (R21) -/
  latch : Option MovPrefix
  /-- `outcome` (R74) -/
  outcome : RunOutcome
  /-- `text`, the program (R24) -/
  text : Memory
deriving DecidableEq, Repr

/-- The state after reset (R22, R85): `pc = entry`, `prefix = None`, `outcome = Running`. The spec leaves every
register unspecified; the zeros here are DESIGN CHOICE, unsafe (log entries 2 to 5), and the configuration and
the empty text are those of log entries 1, 6 and 22. No statement rests on them but where it says so. -/
def State.reset : State where
  cfg := Config.default
  z := Vector.replicate 32 0
  p := Vector.replicate 16 0
  fpcr := 0
  fpsr := 0
  pc := Config.default.entry
  latch := none
  outcome := .running
  text := []

end Sys2Proof.Machine
end

