-- ==== Sys2Proof/Machine/Flags.lean ====
section
/-! DEFINITION. The control and status registers: the fields of FPCR and FPSR, the rounding mode, the trap
enables and the cumulative flags (spec/10_state.md R17, R18, spec/41_int_to_fp_conversion.md R66, R69, R70). Both
layouts are general knowledge in the spec itself (GK10): UNVERIFIED, unsafe (log entry 10). -/

namespace Sys2Proof.Machine

/-! ## FPCR (R17) -/

/-- `FPCR.RMode`, bits 23:22. -/
def fpcrRMode (v : BitVec 64) : BitVec 2 := v.extractLsb' 22 2

/-- `FPCR.IDE`, bit 15: no floating-point input, so nothing reads it. -/
def fpcrIDE : Nat := 15

/-- `FPCR.IXE`, bit 12: Inexact trap enable. -/
def fpcrIXE : Nat := 12

/-- `FPCR.UFE`, bit 11: underflow cannot occur, so nothing reads it. -/
def fpcrUFE : Nat := 11

/-- `FPCR.OFE`, bit 10: Overflow trap enable. -/
def fpcrOFE : Nat := 10

/-- `FPCR.DZE`, bit 9: no division, so nothing reads it. -/
def fpcrDZE : Nat := 9

/-- `FPCR.IOE`, bit 8: Invalid Operation cannot be signalled, so nothing reads it. -/
def fpcrIOE : Nat := 8

/-- The six trap-enable bits of R17. -/
def fpcrTrapEnables : BitVec 64 :=
  (1 <<< fpcrIDE) ||| (1 <<< fpcrIXE) ||| (1 <<< fpcrUFE) ||| (1 <<< fpcrOFE) ||| (1 <<< fpcrDZE) |||
    (1 <<< fpcrIOE)

/-- `FPCR` as it reads: the trap-enable bits read as zero where trapped exceptions are not supported (R17, R70).
DEDUCED for a state whose stored bits are 1 there, which no launch state of R70 has; safe for every other (log entry 12). -/
def State.readFpcr (s : State) : BitVec 64 :=
  match s.cfg.fpTraps with
  | .supported => s.fpcr
  | .notSupported => s.fpcr &&& ~~~fpcrTrapEnables

/-- The four rounding modes (R66). -/
inductive RMode where
  /-- to nearest, ties to even -/
  | rn
  /-- toward plus infinity -/
  | rp
  /-- toward minus infinity -/
  | rm
  /-- toward zero -/
  | rz
deriving DecidableEq, Repr

/-- The rounding mode a value of `RMode` names (R66). -/
def rmodeOf (field : BitVec 2) : RMode :=
  if field = 0b00 then .rn else if field = 0b01 then .rp else if field = 0b10 then .rm else .rz

/-- `FPRoundingMode(FPCR)`, read when the instruction executes (R34, R66). -/
def State.rounding (s : State) : RMode := rmodeOf (fpcrRMode s.readFpcr)

/-! ## FPSR (R18) -/

/-- `FPSR.IXC`, bit 4: Inexact cumulative. -/
def fpsrIXC : Nat := 4

/-- `FPSR.OFC`, bit 2: Overflow cumulative. -/
def fpsrOFC : Nat := 2

/-- The cumulative update: bits are set, never cleared, and no other bit is touched (R18, R69). -/
def accumulate (fpsr : BitVec 64) (inexact overflow : Bool) : BitVec 64 :=
  fpsr ||| (if inexact then 1 <<< fpsrIXC else 0) ||| (if overflow then 1 <<< fpsrOFC else 0)

/-- An enabled exception arose (R70): Inexact with `IXE`, or Overflow with `OFE`. -/
def State.trapsFP (s : State) (inexact overflow : Bool) : Bool :=
  (s.readFpcr.getLsbD fpcrIXE && inexact) || (s.readFpcr.getLsbD fpcrOFE && overflow)

end Sys2Proof.Machine
end

