-- ==== Sys2Proof/Machine/Convert.lean ====
section
/-! DEFINITION. The conversion of an unsigned integer to floating-point: the three formats and `ucvt`
(spec/41_int_to_fp_conversion.md R63 to R68). The spec gives it whole and marks it as general knowledge (D17,
GK5): UNVERIFIED, unsafe (log entry 9). -/

namespace Sys2Proof.Machine

/-- `E`, the exponent bits of the format (R64). -/
def expBits : ElemSize → Nat
  | .h => 5
  | .s => 8
  | .d => 11

/-- `F`, the fraction bits of the format (R64). -/
def fracBits : ElemSize → Nat
  | .h => 10
  | .s => 23
  | .d => 52

/-- The exponent bias of the format (R64). -/
def bias : ElemSize → Nat
  | .h => 15
  | .s => 127
  | .d => 1023

/-- The result of one conversion (R67). -/
structure Conversion (n : ElemSize) where
  bits : BitVec n.bits
  inexact : Bool
  overflow : Bool
deriving DecidableEq, Repr

/-- Whether the kept bits `m` are incremented, for discarded bits `r` with half a unit `half` (R67). -/
def roundsUp (rmode : RMode) (m r half : Nat) : Bool :=
  match rmode with
  | .rn => r > half || (r == half && m % 2 == 1)
  | .rp => r != 0
  | .rm => false
  | .rz => false

/-- The significand of `F + 1` bits kept of `v`, whose highest set bit is `k`, after rounding but before the
carry is taken out; and whether bits were lost (R67). -/
def significand (v k frac : Nat) (rmode : RMode) : Nat × Bool :=
  if k ≤ frac then (v * 2 ^ (frac - k), false)
  else
    let sh := k - frac
    let m := v / 2 ^ sh
    let r := v % 2 ^ sh
    (if roundsUp rmode m r (2 ^ (sh - 1)) then m + 1 else m, r != 0)

/-- The result on overflow: +infinity under RN and RP, the largest finite number under RM and RZ (R68). -/
def overflowBits (n : ElemSize) (rmode : RMode) : Nat :=
  let inf := (2 ^ expBits n - 1) * 2 ^ fracBits n
  match rmode with
  | .rn => inf
  | .rp => inf
  | .rm => inf - 1
  | .rz => inf - 1

/-- `ucvt(v, N, rmode)` (R67), on unbounded integers; the highest set bit of `v` is `Nat.log2 v`. -/
def ucvt (v : Nat) (n : ElemSize) (rmode : RMode) : Conversion n :=
  if v = 0 then { bits := 0, inexact := false, overflow := false }
  else
    let F := fracBits n
    let sig := significand v v.log2 F rmode
    let carried := sig.1 == 2 ^ (F + 1)
    let m := if carried then 2 ^ F else sig.1
    let k := if carried then v.log2 + 1 else v.log2
    if k > bias n then
      { bits := BitVec.ofNat n.bits (overflowBits n rmode), inexact := true, overflow := true }
    else
      { bits := BitVec.ofNat n.bits ((k + bias n) * 2 ^ F + (m - 2 ^ F)), inexact := sig.2, overflow := false }

end Sys2Proof.Machine
end

