-- ==== Sys2Proof/Syntax.lean ====
section
/-! DEFINITION. The instructions: one constructor for each row of spec/opcode_table.json, the 14 encoding
classes of UCVTF (predicated) in the order of spec/30_encoding.md R33. -/

namespace Sys2Proof

/-- UCVTF (predicated). A constructor's name reads as its template does: result type, `Merge` for `/M` or
`Zero` for `/Z`, source type. The operands stand in assembler order: `<Zd>`, `<Pg>`, `<Zn>` (R38). -/
inductive Instr where
  /-- `UCVTF <Zd>.H, <Pg>/M, <Zn>.H` (R45) -/
  | ucvtfHMergeH (zd : ZReg) (pg : PReg) (zn : ZReg)
  /-- `UCVTF <Zd>.H, <Pg>/Z, <Zn>.H` (R46) -/
  | ucvtfHZeroH (zd : ZReg) (pg : PReg) (zn : ZReg)
  /-- `UCVTF <Zd>.H, <Pg>/M, <Zn>.S` (R47) -/
  | ucvtfHMergeS (zd : ZReg) (pg : PReg) (zn : ZReg)
  /-- `UCVTF <Zd>.H, <Pg>/Z, <Zn>.S` (R48) -/
  | ucvtfHZeroS (zd : ZReg) (pg : PReg) (zn : ZReg)
  /-- `UCVTF <Zd>.S, <Pg>/M, <Zn>.S` (R49) -/
  | ucvtfSMergeS (zd : ZReg) (pg : PReg) (zn : ZReg)
  /-- `UCVTF <Zd>.S, <Pg>/Z, <Zn>.S` (R50) -/
  | ucvtfSZeroS (zd : ZReg) (pg : PReg) (zn : ZReg)
  /-- `UCVTF <Zd>.D, <Pg>/M, <Zn>.S` (R51) -/
  | ucvtfDMergeS (zd : ZReg) (pg : PReg) (zn : ZReg)
  /-- `UCVTF <Zd>.D, <Pg>/Z, <Zn>.S` (R52) -/
  | ucvtfDZeroS (zd : ZReg) (pg : PReg) (zn : ZReg)
  /-- `UCVTF <Zd>.H, <Pg>/M, <Zn>.D` (R53) -/
  | ucvtfHMergeD (zd : ZReg) (pg : PReg) (zn : ZReg)
  /-- `UCVTF <Zd>.H, <Pg>/Z, <Zn>.D` (R54) -/
  | ucvtfHZeroD (zd : ZReg) (pg : PReg) (zn : ZReg)
  /-- `UCVTF <Zd>.S, <Pg>/M, <Zn>.D` (R55) -/
  | ucvtfSMergeD (zd : ZReg) (pg : PReg) (zn : ZReg)
  /-- `UCVTF <Zd>.S, <Pg>/Z, <Zn>.D` (R56) -/
  | ucvtfSZeroD (zd : ZReg) (pg : PReg) (zn : ZReg)
  /-- `UCVTF <Zd>.D, <Pg>/M, <Zn>.D` (R57) -/
  | ucvtfDMergeD (zd : ZReg) (pg : PReg) (zn : ZReg)
  /-- `UCVTF <Zd>.D, <Pg>/Z, <Zn>.D` (R58) -/
  | ucvtfDZeroD (zd : ZReg) (pg : PReg) (zn : ZReg)
deriving DecidableEq, Repr

/-- `Zd`, the destination vector register (R30). -/
def Instr.zd : Instr → ZReg
  | .ucvtfHMergeH zd _ _ | .ucvtfHZeroH zd _ _ | .ucvtfHMergeS zd _ _ | .ucvtfHZeroS zd _ _
  | .ucvtfSMergeS zd _ _ | .ucvtfSZeroS zd _ _ | .ucvtfDMergeS zd _ _ | .ucvtfDZeroS zd _ _
  | .ucvtfHMergeD zd _ _ | .ucvtfHZeroD zd _ _ | .ucvtfSMergeD zd _ _ | .ucvtfSZeroD zd _ _
  | .ucvtfDMergeD zd _ _ | .ucvtfDZeroD zd _ _ => zd

/-- `Pg`, the governing predicate register (R30). -/
def Instr.pg : Instr → PReg
  | .ucvtfHMergeH _ pg _ | .ucvtfHZeroH _ pg _ | .ucvtfHMergeS _ pg _ | .ucvtfHZeroS _ pg _
  | .ucvtfSMergeS _ pg _ | .ucvtfSZeroS _ pg _ | .ucvtfDMergeS _ pg _ | .ucvtfDZeroS _ pg _
  | .ucvtfHMergeD _ pg _ | .ucvtfHZeroD _ pg _ | .ucvtfSMergeD _ pg _ | .ucvtfSZeroD _ pg _
  | .ucvtfDMergeD _ pg _ | .ucvtfDZeroD _ pg _ => pg

/-- `Zn`, the source vector register (R30). -/
def Instr.zn : Instr → ZReg
  | .ucvtfHMergeH _ _ zn | .ucvtfHZeroH _ _ zn | .ucvtfHMergeS _ _ zn | .ucvtfHZeroS _ _ zn
  | .ucvtfSMergeS _ _ zn | .ucvtfSZeroS _ _ zn | .ucvtfDMergeS _ _ zn | .ucvtfDZeroS _ _ zn
  | .ucvtfHMergeD _ _ zn | .ucvtfHZeroD _ _ zn | .ucvtfSMergeD _ _ zn | .ucvtfSZeroD _ _ zn
  | .ucvtfDMergeD _ _ zn | .ucvtfDZeroD _ _ zn => zn

/-- Merging predication: the seven `/M` classes (R33). -/
def Instr.merging : Instr → Bool
  | .ucvtfHMergeH .. | .ucvtfHMergeS .. | .ucvtfSMergeS .. | .ucvtfDMergeS ..
  | .ucvtfHMergeD .. | .ucvtfSMergeD .. | .ucvtfDMergeD .. => true
  | .ucvtfHZeroH .. | .ucvtfHZeroS .. | .ucvtfSZeroS .. | .ucvtfDZeroS ..
  | .ucvtfHZeroD .. | .ucvtfSZeroD .. | .ucvtfDZeroD .. => false

/-- `s_esize`, the width of the source integer: the suffix of `<Zn>` (R33). -/
def Instr.srcSize : Instr → ElemSize
  | .ucvtfHMergeH .. | .ucvtfHZeroH .. => .h
  | .ucvtfHMergeS .. | .ucvtfHZeroS .. | .ucvtfSMergeS .. | .ucvtfSZeroS .. | .ucvtfDMergeS ..
  | .ucvtfDZeroS .. => .s
  | .ucvtfHMergeD .. | .ucvtfHZeroD .. | .ucvtfSMergeD .. | .ucvtfSZeroD .. | .ucvtfDMergeD ..
  | .ucvtfDZeroD .. => .d

/-- `d_esize`, the width of the floating-point result: the suffix of `<Zd>` (R33). -/
def Instr.dstSize : Instr → ElemSize
  | .ucvtfHMergeH .. | .ucvtfHZeroH .. | .ucvtfHMergeS .. | .ucvtfHZeroS .. | .ucvtfHMergeD ..
  | .ucvtfHZeroD .. => .h
  | .ucvtfSMergeS .. | .ucvtfSZeroS .. | .ucvtfSMergeD .. | .ucvtfSZeroD .. => .s
  | .ucvtfDMergeS .. | .ucvtfDZeroS .. | .ucvtfDMergeD .. | .ucvtfDZeroD .. => .d

/-- `esize`, the width of an element: the larger of the two (R33). -/
def Instr.elemSize : Instr → ElemSize
  | .ucvtfHMergeH .. | .ucvtfHZeroH .. => .h
  | .ucvtfHMergeS .. | .ucvtfHZeroS .. | .ucvtfSMergeS .. | .ucvtfSZeroS .. => .s
  | .ucvtfDMergeS .. | .ucvtfDZeroS .. | .ucvtfHMergeD .. | .ucvtfHZeroD .. | .ucvtfSMergeD ..
  | .ucvtfSZeroD .. | .ucvtfDMergeD .. | .ucvtfDZeroD .. => .d

end Sys2Proof
end

