-- ==== Sys2Proof/WellFormed.lean ====
section
/-! DEFINITION. Well-formed instructions (spec/10_state.md R13, spec/30_encoding.md R34) and the one optional
premise on the configuration that spec/00_scope.md R2 allows by name. -/

namespace Sys2Proof

/-- `Pg` names one of `P0` to `P7`: the field has three bits (R13, R30, R34). -/
def governing (pg : PReg) : Bool := pg.val < 8

/-- The check on an instruction. Every value of `Zd` and `Zn` is valid (R34); the type `ZReg` holds just
those 32. -/
def Instr.wellFormed (i : Instr) : Bool := governing i.pg

/-- The feature implications of R2, from outside D0: SVE2.2 only where SVE, SME2.2 only where SME. The model
never assumes it; a statement that wants it names it as a premise (log entry 28). -/
def Config.featuresConsistent (c : Config) : Bool :=
  (!c.featSve2p2 || c.featSve) && (!c.featSme2p2 || c.featSme)

end Sys2Proof
end

