-- ==== Sys2Proof/Decode.lean ====
section
/-! DEFINITION. The decoder, total on any bytes (spec/30_encoding.md R36, R37), and the encoder, written from
the two formats (R31, R32) rather than from the decoder's match table, so that each checks the other. The bit
patterns come from general knowledge in the spec itself (D16, GK3, GK4): UNVERIFIED, unsafe for a claim about
words, no matter for a claim about decoded instructions (log entry 8). -/

namespace Sys2Proof

/-- Why bytes are not an instruction of this machine. -/
inductive DecodeError where
  /-- fewer than the four bytes of a word (R29) -/
  | truncated
  /-- a word that matches none of the 14 patterns: never UNDEFINED, never a no-op (R37) -/
  | notInScope (w : Word)
deriving DecidableEq, Repr

/-! ## Fields -/

/-- `Zd`, bits 4:0 (R31, R32). -/
def fieldZd (w : Word) : ZReg := (w.extractLsb' 0 5).toFin

/-- `Zn`, bits 9:5 (R31, R32). -/
def fieldZn (w : Word) : ZReg := (w.extractLsb' 5 5).toFin

/-- `Pg`, bits 12:10 (R31, R32). -/
def fieldPg (w : Word) : PReg := Fin.castLE (by decide) (w.extractLsb' 10 3).toFin

/-! ## Decoding -/

/-- The fixed-bit mask of all 14 classes (R31, R32, R36). -/
def fixedMask : Word := 0xFFFFE000

/-- One row of the table of R33: the class's `match` value and its instruction. -/
structure MatchRow where
  key : Word
  instr : ZReg → PReg → ZReg → Instr

/-- The 14 `match` values of R33, in its order. -/
def matchTable : List MatchRow :=
  [ ⟨0x6553A000, .ucvtfHMergeH⟩, ⟨0x645CE000, .ucvtfHZeroH⟩,
    ⟨0x6555A000, .ucvtfHMergeS⟩, ⟨0x645DA000, .ucvtfHZeroS⟩,
    ⟨0x6595A000, .ucvtfSMergeS⟩, ⟨0x649DA000, .ucvtfSZeroS⟩,
    ⟨0x65D1A000, .ucvtfDMergeS⟩, ⟨0x64DCA000, .ucvtfDZeroS⟩,
    ⟨0x6557A000, .ucvtfHMergeD⟩, ⟨0x645DE000, .ucvtfHZeroD⟩,
    ⟨0x65D5A000, .ucvtfSMergeD⟩, ⟨0x64DDA000, .ucvtfSZeroD⟩,
    ⟨0x65D7A000, .ucvtfDMergeD⟩, ⟨0x64DDE000, .ucvtfDZeroD⟩ ]

/-- The opcode map of R36. The feature gate of R35 is not here: it is a test of the executing instruction
(`ucvtf` in Machine/Ops.lean), made before every other effect. -/
def decodeWord (w : Word) : Except DecodeError Instr :=
  match matchTable.find? (fun r => r.key == w &&& fixedMask) with
  | some r => .ok (r.instr (fieldZd w) (fieldPg w) (fieldZn w))
  | none => .error (.notInScope w)

/-- A word from its four bytes, lowest address first: little-endian always (R25). -/
def wordOfBytes (b0 b1 b2 b3 : Byte) : Word := b3 ++ b2 ++ b1 ++ b0

/-- The byte of a word that stands `k` addresses above the word's own (R25). -/
def byteOfWord (w : Word) (k : Nat) : Byte := w.extractLsb' (8 * k) 8

/-- The decoder over bytes, lowest address first; it takes the four bytes of one word (R25, R29). -/
def decode : List Byte → Except DecodeError Instr
  | b0 :: b1 :: b2 :: b3 :: _ => decodeWord (wordOfBytes b0 b1 b2 b3)
  | _ => .error .truncated

/-! ## Encoding -/

/-- The three operand fields, bits 12:0 of both formats (R31, R32). -/
def operandBits (zd : ZReg) (pg : PReg) (zn : ZReg) : BitVec 13 :=
  BitVec.ofNat 3 pg.val ++ BitVec.ofNat 5 zn.val ++ BitVec.ofNat 5 zd.val

/-- Format M, the merging classes (R31), with `U = 1`. -/
def formatM (opc opc2 : BitVec 2) : BitVec 19 :=
  0b01100101#8 ++ opc ++ 0b010#3 ++ opc2 ++ 0b1#1 ++ 0b101#3

/-- Format Z, the zeroing classes (R32), with `U = 1`: the two bits of `opc2` stand apart. -/
def formatZ (opc opc2 : BitVec 2) : BitVec 19 :=
  0b01100100#8 ++ opc ++ 0b011#3 ++ 0b10#2 ++ opc2.extractLsb' 1 1 ++ 0b1#1 ++ opc2.extractLsb' 0 1 ++ 0b1#1

/-- The 19 fixed bits of an instruction's class: its format with its `(opc, opc2)` pair (R31 to R33). -/
def Instr.fixedBits : Instr → BitVec 19
  | .ucvtfHMergeH .. => formatM 0b01 0b01
  | .ucvtfHZeroH ..  => formatZ 0b01 0b01
  | .ucvtfHMergeS .. => formatM 0b01 0b10
  | .ucvtfHZeroS ..  => formatZ 0b01 0b10
  | .ucvtfSMergeS .. => formatM 0b10 0b10
  | .ucvtfSZeroS ..  => formatZ 0b10 0b10
  | .ucvtfDMergeS .. => formatM 0b11 0b00
  | .ucvtfDZeroS ..  => formatZ 0b11 0b00
  | .ucvtfHMergeD .. => formatM 0b01 0b11
  | .ucvtfHZeroD ..  => formatZ 0b01 0b11
  | .ucvtfSMergeD .. => formatM 0b11 0b10
  | .ucvtfSZeroD ..  => formatZ 0b11 0b10
  | .ucvtfDMergeD .. => formatM 0b11 0b11
  | .ucvtfDZeroD ..  => formatZ 0b11 0b11

/-- The word of an instruction (R31 to R33). -/
def encode (i : Instr) : Word := i.fixedBits ++ operandBits i.zd i.pg i.zn

/-- The four bytes of an instruction, lowest address first (R25). -/
def encodeBytes (i : Instr) : List Byte :=
  [byteOfWord (encode i) 0, byteOfWord (encode i) 1, byteOfWord (encode i) 2, byteOfWord (encode i) 3]

/-! ## The opcode table's numbering -/

/-- The word whose bits are the low `nbits` bits of `w`, every bit above them 0. -/
def tableWord (nbits w : Nat) : Word := BitVec.ofNat 32 (w % 2 ^ nbits)

/-- What the decoder reads from a row of spec/opcode_table.json: the word's bytes laid out as the hardware
stores them and given to `decode`. -/
def decodeTableWord (nbits w : Nat) : Option Instr :=
  let v := tableWord nbits w
  match decode [byteOfWord v 0, byteOfWord v 1, byteOfWord v 2, byteOfWord v 3] with
  | .ok i => some i
  | .error _ => none

end Sys2Proof
end

