-- ==== Sys2Proof/Machine/Memory.lean ====
section
/-! DEFINITION. The program text as bytes (spec/20_memory.md R24, R25). No instruction writes it (R28 (c)); the
write here is for loading a program before a run (log entry 22). -/

namespace Sys2Proof.Machine

/-- The byte at an address, or none where the text lists nothing: the one definition of what an unlisted address
reads as (R24). -/
def Memory.read : Memory → Nat → Option Byte
  | [], _ => none
  | c :: m, a => if c.1 = a then some c.2 else Memory.read m a

/-- Puts one byte at an address, keeping the addresses strictly rising. No byte equals what an unlisted address
reads as, so a write never removes an entry. -/
def Memory.write : Memory → Nat → Byte → Memory
  | [], a, b => [(a, b)]
  | c :: m, a, b =>
    if a < c.1 then (a, b) :: c :: m
    else if a = c.1 then (a, b) :: m
    else c :: Memory.write m a b

/-- The canonical order: addresses strictly rising and inside the 64-bit address space. -/
abbrev Memory.sorted (m : Memory) : Prop :=
  m.Pairwise (fun c c' => c.1 < c'.1) ∧ ∀ c ∈ m, c.1 < 2 ^ 64

/-- Every byte listed belongs to an aligned word that is listed whole: the text maps addresses that are
multiples of 4 to 32-bit words (R24). -/
abbrev Memory.wholeWords (m : Memory) : Prop :=
  ∀ c ∈ m, ∀ k < 4, (Memory.read m (c.1 / 4 * 4 + k)).isSome

/-- The canonical form of the text. -/
abbrev Memory.wf (m : Memory) : Prop := Memory.sorted m ∧ Memory.wholeWords m

/-- `text(a)`: the word at `a` (R24), its bits 7:0 in the byte at `a` (R25); none where `a` is not a multiple
of 4 (R26; log entry 27) or the text lists nothing there. -/
def Memory.readWord (m : Memory) (a : Addr) : Option Word :=
  if a.toNat % 4 = 0 then
    match m.read a.toNat, m.read (a.toNat + 1), m.read (a.toNat + 2), m.read (a.toNat + 3) with
    | some b0, some b1, some b2, some b3 => some (wordOfBytes b0 b1 b2 b3)
    | _, _, _, _ => none
  else none

/-- Loads one word at an address (R24, R25); the text has no words at addresses that are not multiples of 4. -/
def Memory.putWord (m : Memory) (a : Addr) (w : Word) : Memory :=
  if a.toNat % 4 = 0 then
    (((m.write a.toNat (byteOfWord w 0)).write (a.toNat + 1) (byteOfWord w 1)).write
      (a.toNat + 2) (byteOfWord w 2)).write (a.toNat + 3) (byteOfWord w 3)
  else m

end Sys2Proof.Machine
end

