-- ==== Sys2Proof/Machine/Operands.lean ====
section
/-! DEFINITION. The register operands: vector registers and their elements, predicate registers and the elements
they make active (spec/10_state.md R11 to R15, spec/00_scope.md R6, R7). -/

namespace Sys2Proof.Machine

/-! ## Registers -/

/-- `Z[n, VL]` read (R11). There is no hard-wired register. -/
def State.readZ (s : State) (n : ZReg) : BitVec s.cfg.vl := s.z.get n

/-- `Z[d, VL] = v` (R11). -/
def State.writeZ (s : State) (d : ZReg) (v : BitVec s.cfg.vl) : State :=
  { s with z := s.z.set d.val v }

/-- `P[g, PL]` read (R13). No instruction writes a predicate register. -/
def State.readP (s : State) (g : PReg) : BitVec s.cfg.pl := s.p.get g

/-- The low `width` bits of `Z<n>`: the registers `V<n>` and `Q<n>` (128), `D<n>` (64), `S<n>` (32), `H<n>` (16)
and `B<n>` (8), which are views of it and no storage of their own (R11). -/
def State.readLow (s : State) (n : ZReg) (width : Nat) : BitVec width := (s.readZ n).setWidth width

/-- The contents of `Z<n>` as a number, whatever the vector length. -/
def State.zNat (s : State) (n : ZReg) : Nat := (s.readZ n).toNat

/-- The contents of `P<g>` as a number, whatever the vector length. -/
def State.pNat (s : State) (g : PReg) : Nat := (s.readP g).toNat

/-! ## Elements -/

/-- `Elem[v, e, size]`: bits `e*size + size - 1 : e*size` (R7, R12). -/
def elemGet {w : Nat} (v : BitVec w) (e size : Nat) : BitVec size := v.extractLsb' (e * size) size

/-- `Elem[v, e, size] = x`: replaces exactly those bits (R7, R12). -/
def elemSet {w : Nat} (v : BitVec w) (e size : Nat) (x : BitVec size) : BitVec w :=
  (v &&& ~~~((BitVec.allOnes size).setWidth w <<< (e * size))) ||| (x.setWidth w <<< (e * size))

/-- `ActivePredicateElement(mask, e, esize)`: the lowest of the `esize DIV 8` predicate bits that cover the
element; the others are ignored (R15). -/
def active {w : Nat} (mask : BitVec w) (e esize : Nat) : Bool := mask.getLsbD (e * (esize / 8))

/-- `AnyActiveElement(mask, esize)`: some element `0 .. elements-1` is active (R15). -/
def anyActive {w : Nat} (mask : BitVec w) (esize elements : Nat) : Bool :=
  (List.range elements).any (fun e => active mask e esize)

/-- `elements = VL DIV esize` (R12, R14). -/
def State.elements (s : State) (esize : Nat) : Nat := s.cfg.vl / esize

end Sys2Proof.Machine
end

