-- ==== Sys2Proof/Machine/Ops.lean ====
section
/-! DEFINITION. The shared operations: stopping, the tests an instruction makes in the order of
spec/60_exceptions.md R76, the Operation of spec/40_ucvtf_predicated.md R39, completion, and the fetch. -/

namespace Sys2Proof.Machine

/-- What a step answers. -/
abbrev Answer := Host.Outcome State Fault Refusal

/-! ## Stopping: taking an exception -/

/-- Taking an exception, `outcome <- Fault(reason)` (R74). The spec enters no handler, saves nothing and has no
return (R82, D5): the whole of the entry is that the step ends with the reason and writes nothing else, and
`State.settle` records it. DEDUCED, safe (log entry 11). -/
def raise (r : Fault) : Answer := .fault r

/-- `outcome <- Refused(reason)` (R74). -/
def refuse (r : Refusal) : Answer := .refused r

/-- The state after a step that gave this answer: a stop writes `outcome` and nothing else, `pc` included (R74,
R75). At the end of a run and where the agent is stuck there is no step, so nothing is written (R90). -/
def State.settle (s : State) : Answer → State
  | .next t => t
  | .fault r => { s with outcome := .fault r }
  | .refused .runOver => s
  | .refused .stuck => s
  | .refused r => { s with outcome := .refused r }

/-! ## The decode constants of a class -/

/-- The constants a class's Decode block assigns (R33); `unsigned` is TRUE in all 14, and `rounding` is read
from FPCR when the instruction executes (R34). -/
structure DecodeConstants where
  esize : ElemSize
  sEsize : ElemSize
  dEsize : ElemSize
  merging : Bool
deriving DecidableEq, Repr

/-! ## The tests -/

/-- R60 (2) to (5): the MOVPRFX names the same governing predicate and the class's element size where it is
predicated, and the same destination, which is not also the source. -/
def prefixConforms (c : DecodeConstants) (zd : ZReg) (pg : PReg) (zn : ZReg) (m : MovPrefix) : Bool :=
  (match m.pred with
    | none => true
    | some p => p.pg == pg && p.esize == c.esize.bits) &&
  m.zd == zd && zd != zn

/-- The latch lets the instruction execute: R61 (a) or (b), and not (c) or (d). -/
def latchAdmits (c : DecodeConstants) (zd : ZReg) (pg : PReg) (zn : ZReg) : Option MovPrefix → Bool
  | none => true
  | some m => c.merging && prefixConforms c zd pg zn m

/-- The class's feature pair is implemented (R35): FEAT_SVE or FEAT_SME for a merging class, FEAT_SVE2p2 or
FEAT_SME2p2 for a zeroing one. -/
def implemented (cfg : Config) (merging : Bool) : Bool :=
  if merging then cfg.featSve || cfg.featSme else cfg.featSve2p2 || cfg.featSme2p2

/-! ## The Operation -/

/-- What the loop of R39 carries: the vector under construction and the OR of the conversions' flags. -/
structure Accumulated (w : Nat) where
  result : BitVec w
  inexact : Bool
  overflow : Bool
deriving DecidableEq, Repr

/-- The source integer of an element: its low `s_esize` bits, unsigned (R39, R65). -/
def sourceOf (c : DecodeConstants) {w : Nat} (operand : BitVec w) (e : Nat) : Nat :=
  ((elemGet operand e c.esize.bits).setWidth c.sEsize.bits).toNat

/-- The body of the loop of R39 for one element: an active element becomes its conversion, zero-extended to the
element, and an inactive one stays as it is and signals nothing (R40, R42, R69). -/
def convertElement (c : DecodeConstants) (rmode : RMode) {w p : Nat} (mask : BitVec p) (operand : BitVec w)
    (e : Nat) (a : Accumulated w) : Accumulated w :=
  if active mask e c.esize.bits then
    let r := ucvt (sourceOf c operand e) c.dEsize rmode
    { result := elemSet a.result e c.esize.bits (r.bits.setWidth c.esize.bits),
      inexact := a.inexact || r.inexact,
      overflow := a.overflow || r.overflow }
  else a

/-- The loop of R39 over the elements `0 .. count-1`, in that order. -/
def convertElements (c : DecodeConstants) (rmode : RMode) {w p : Nat} (mask : BitVec p) (operand init : BitVec w) :
    Nat → Accumulated w
  | 0 => { result := init, inexact := false, overflow := false }
  | count + 1 => convertElement c rmode mask operand count (convertElements c rmode mask operand init count)

/-- The Operation of R39 up to its last assignment: the predicate and the source are read before any write, the
source only when some element is active (R41), and the result starts as the old destination or as zeros. -/
def convertVector (c : DecodeConstants) (zd : ZReg) (pg : PReg) (zn : ZReg) (s : State) : Accumulated s.cfg.vl :=
  let mask := s.readP pg
  let elements := s.elements c.esize.bits
  let operand := if anyActive mask c.esize.bits elements then s.readZ zn else 0
  let init := if c.merging then s.readZ zd else 0
  convertElements c s.rounding mask operand init elements

/-- Everything a completed instruction writes (R39, R44): the destination, the two cumulative flags, the `pc`
and the latch. -/
def State.retire (s : State) (zd : ZReg) (a : Accumulated s.cfg.vl) : State :=
  { s.writeZ zd a.result with
    fpsr := accumulate s.fpsr a.inexact a.overflow
    pc := s.pc + 4
    latch := none }

/-- Completion: `pc <- pc + 4`, refused where that does not fit in 64 bits (R19, D9). It is the last test, since
only an instruction that completes advances the `pc`: DEDUCED, safe (log entry 15). -/
def complete (zd : ZReg) (s : State) (a : Accumulated s.cfg.vl) : Answer :=
  if s.pc.toNat + 4 < 2 ^ 64 then .next (s.retire zd a) else refuse .pcWrap

/-- UCVTF (predicated) with the constants of its class: the tests in the order of R76 (the latch R61, the feature
gate R35 and R77, the SVE access check R78, the trapped floating-point exceptions R70), then R39. `w` is the
instruction's word, for the report of an UNDEFINED instruction. -/
def ucvtf (c : DecodeConstants) (w : Word) (zd : ZReg) (pg : PReg) (zn : ZReg) (s : State) : Answer :=
  if latchAdmits c zd pg zn s.latch then
    if implemented s.cfg c.merging then
      match s.cfg.sveAccess with
      | .undefined => raise (.undefinedInstruction w)
      | .trapped info => raise (.sveAccess info)
      | .allowed =>
        let a := convertVector c zd pg zn s
        if s.trapsFP a.inexact a.overflow then refuse .trappedFP else complete zd s a
    else raise (.undefinedInstruction w)
  else refuse .movprfxUnpredictable

/-! ## Fetch -/

/-- Fetch at `pc`: `text(pc)` (R24). -/
def State.fetch (s : State) : Option Word := s.text.readWord s.pc

/-- The word the table's numbering gives, loaded where the next step fetches it (log entry 22). The run must not
be over there (R90), so an `end_pc` that stands at `pc` moves just past the word, and `outcome` is `Running`. -/
def State.loadAtPc (s : State) (w : Word) : State :=
  { s with
    cfg := { s.cfg with endPc := if s.cfg.endPc = s.pc then s.pc + 4 else s.cfg.endPc }
    z := s.z
    p := s.p
    text := s.text.putWord s.pc w
    outcome := .running }

end Sys2Proof.Machine
end

