-- ==== Sys2Proof/Machine/Ucvtf.lean ====
section
/-! DEFINITION. The meanings of the 14 encodings of UCVTF (predicated): the shared operation of Machine/Ops.lean
with each class's own constants (spec/30_encoding.md R33, spec/40_ucvtf_predicated.md R45 to R58). The word an
UNDEFINED instruction is reported with is its encoding, which the decoder read it from (R77): DEDUCED, safe (log
entry 18). -/

namespace Sys2Proof.Machine

/-- `UCVTF <Zd>.H, <Pg>/M, <Zn>.H` (R45): esize 16, s_esize 16, d_esize 16, merging. -/
def execUcvtfHMergeH (zd : ZReg) (pg : PReg) (zn : ZReg) (s : State) : Answer :=
  ucvtf ⟨.h, .h, .h, true⟩ (encode (.ucvtfHMergeH zd pg zn)) zd pg zn s

/-- `UCVTF <Zd>.H, <Pg>/Z, <Zn>.H` (R46): esize 16, s_esize 16, d_esize 16, zeroing. -/
def execUcvtfHZeroH (zd : ZReg) (pg : PReg) (zn : ZReg) (s : State) : Answer :=
  ucvtf ⟨.h, .h, .h, false⟩ (encode (.ucvtfHZeroH zd pg zn)) zd pg zn s

/-- `UCVTF <Zd>.H, <Pg>/M, <Zn>.S` (R47): esize 32, s_esize 32, d_esize 16, merging. -/
def execUcvtfHMergeS (zd : ZReg) (pg : PReg) (zn : ZReg) (s : State) : Answer :=
  ucvtf ⟨.s, .s, .h, true⟩ (encode (.ucvtfHMergeS zd pg zn)) zd pg zn s

/-- `UCVTF <Zd>.H, <Pg>/Z, <Zn>.S` (R48): esize 32, s_esize 32, d_esize 16, zeroing. -/
def execUcvtfHZeroS (zd : ZReg) (pg : PReg) (zn : ZReg) (s : State) : Answer :=
  ucvtf ⟨.s, .s, .h, false⟩ (encode (.ucvtfHZeroS zd pg zn)) zd pg zn s

/-- `UCVTF <Zd>.S, <Pg>/M, <Zn>.S` (R49): esize 32, s_esize 32, d_esize 32, merging. -/
def execUcvtfSMergeS (zd : ZReg) (pg : PReg) (zn : ZReg) (s : State) : Answer :=
  ucvtf ⟨.s, .s, .s, true⟩ (encode (.ucvtfSMergeS zd pg zn)) zd pg zn s

/-- `UCVTF <Zd>.S, <Pg>/Z, <Zn>.S` (R50): esize 32, s_esize 32, d_esize 32, zeroing. -/
def execUcvtfSZeroS (zd : ZReg) (pg : PReg) (zn : ZReg) (s : State) : Answer :=
  ucvtf ⟨.s, .s, .s, false⟩ (encode (.ucvtfSZeroS zd pg zn)) zd pg zn s

/-- `UCVTF <Zd>.D, <Pg>/M, <Zn>.S` (R51): esize 64, s_esize 32, d_esize 64, merging. -/
def execUcvtfDMergeS (zd : ZReg) (pg : PReg) (zn : ZReg) (s : State) : Answer :=
  ucvtf ⟨.d, .s, .d, true⟩ (encode (.ucvtfDMergeS zd pg zn)) zd pg zn s

/-- `UCVTF <Zd>.D, <Pg>/Z, <Zn>.S` (R52): esize 64, s_esize 32, d_esize 64, zeroing. -/
def execUcvtfDZeroS (zd : ZReg) (pg : PReg) (zn : ZReg) (s : State) : Answer :=
  ucvtf ⟨.d, .s, .d, false⟩ (encode (.ucvtfDZeroS zd pg zn)) zd pg zn s

/-- `UCVTF <Zd>.H, <Pg>/M, <Zn>.D` (R53): esize 64, s_esize 64, d_esize 16, merging. -/
def execUcvtfHMergeD (zd : ZReg) (pg : PReg) (zn : ZReg) (s : State) : Answer :=
  ucvtf ⟨.d, .d, .h, true⟩ (encode (.ucvtfHMergeD zd pg zn)) zd pg zn s

/-- `UCVTF <Zd>.H, <Pg>/Z, <Zn>.D` (R54): esize 64, s_esize 64, d_esize 16, zeroing. -/
def execUcvtfHZeroD (zd : ZReg) (pg : PReg) (zn : ZReg) (s : State) : Answer :=
  ucvtf ⟨.d, .d, .h, false⟩ (encode (.ucvtfHZeroD zd pg zn)) zd pg zn s

/-- `UCVTF <Zd>.S, <Pg>/M, <Zn>.D` (R55): esize 64, s_esize 64, d_esize 32, merging. -/
def execUcvtfSMergeD (zd : ZReg) (pg : PReg) (zn : ZReg) (s : State) : Answer :=
  ucvtf ⟨.d, .d, .s, true⟩ (encode (.ucvtfSMergeD zd pg zn)) zd pg zn s

/-- `UCVTF <Zd>.S, <Pg>/Z, <Zn>.D` (R56): esize 64, s_esize 64, d_esize 32, zeroing. -/
def execUcvtfSZeroD (zd : ZReg) (pg : PReg) (zn : ZReg) (s : State) : Answer :=
  ucvtf ⟨.d, .d, .s, false⟩ (encode (.ucvtfSZeroD zd pg zn)) zd pg zn s

/-- `UCVTF <Zd>.D, <Pg>/M, <Zn>.D` (R57): esize 64, s_esize 64, d_esize 64, merging. -/
def execUcvtfDMergeD (zd : ZReg) (pg : PReg) (zn : ZReg) (s : State) : Answer :=
  ucvtf ⟨.d, .d, .d, true⟩ (encode (.ucvtfDMergeD zd pg zn)) zd pg zn s

/-- `UCVTF <Zd>.D, <Pg>/Z, <Zn>.D` (R58): esize 64, s_esize 64, d_esize 64, zeroing. -/
def execUcvtfDZeroD (zd : ZReg) (pg : PReg) (zn : ZReg) (s : State) : Answer :=
  ucvtf ⟨.d, .d, .d, false⟩ (encode (.ucvtfDZeroD zd pg zn)) zd pg zn s

end Sys2Proof.Machine
end

