-- ==== Sys2Proof/Machine/Dispatch.lean ====
section
/-! DEFINITION. One arm for each instruction, each a direct call of its meaning. -/

namespace Sys2Proof.Machine

def exec (i : Instr) (s : State) : Host.Outcome State Fault Refusal :=
  match i with
  | .ucvtfHMergeH zd pg zn => Sys2Proof.Machine.execUcvtfHMergeH zd pg zn s
  | .ucvtfHZeroH zd pg zn => Sys2Proof.Machine.execUcvtfHZeroH zd pg zn s
  | .ucvtfHMergeS zd pg zn => Sys2Proof.Machine.execUcvtfHMergeS zd pg zn s
  | .ucvtfHZeroS zd pg zn => Sys2Proof.Machine.execUcvtfHZeroS zd pg zn s
  | .ucvtfSMergeS zd pg zn => Sys2Proof.Machine.execUcvtfSMergeS zd pg zn s
  | .ucvtfSZeroS zd pg zn => Sys2Proof.Machine.execUcvtfSZeroS zd pg zn s
  | .ucvtfDMergeS zd pg zn => Sys2Proof.Machine.execUcvtfDMergeS zd pg zn s
  | .ucvtfDZeroS zd pg zn => Sys2Proof.Machine.execUcvtfDZeroS zd pg zn s
  | .ucvtfHMergeD zd pg zn => Sys2Proof.Machine.execUcvtfHMergeD zd pg zn s
  | .ucvtfHZeroD zd pg zn => Sys2Proof.Machine.execUcvtfHZeroD zd pg zn s
  | .ucvtfSMergeD zd pg zn => Sys2Proof.Machine.execUcvtfSMergeD zd pg zn s
  | .ucvtfSZeroD zd pg zn => Sys2Proof.Machine.execUcvtfSZeroD zd pg zn s
  | .ucvtfDMergeD zd pg zn => Sys2Proof.Machine.execUcvtfDMergeD zd pg zn s
  | .ucvtfDZeroD zd pg zn => Sys2Proof.Machine.execUcvtfDZeroD zd pg zn s

end Sys2Proof.Machine
end

