-- ==== Sys2Proof/Machine/Step.lean ====
section
/-! DEFINITION. One step (spec/60_exceptions.md R74, spec/70_reset_and_hazards.md R90): no step once `outcome` is not
`Running`, none at `end_pc`, none outside the program text; otherwise fetch, decode, execute. -/

namespace Sys2Proof.Machine

/-- One step of the agent. A stop is sticky: a state whose `outcome` is a stop answers that stop again (R74). The
end of a run and the stuck state are answered by refusals of their own names (DESIGN CHOICE, safe; log entry 16).
A word that does not decode is refused by name, never UNDEFINED and never a no-op (R37). -/
def step (s : State) : Host.Outcome State Fault Refusal :=
  match s.outcome with
  | .fault r => .fault r
  | .refused r => .refused r
  | .running =>
    if s.pc = s.cfg.endPc then .refused .runOver
    else
      match s.fetch with
      | none => .refused .stuck
      | some w =>
        match decodeWord w with
        | .error _ => .refused (.notInScope w)
        | .ok i => exec i s

/-- The state after one step, stops included (R74): what a run of the spec's machine is made of. -/
def advance (s : State) : State := s.settle (step s)

/-- The instruction of the opcode table's numbering stored where `step` fetches next. -/
def State.withFetchWord (s : State) (nbits w : Nat) : State := s.loadAtPc (tableWord nbits w)

end Sys2Proof.Machine
end

