-- ==== Sys2Proof/Safety.lean ====
section
/-! DEFINITION. The terms the statements use: what an instruction needs to complete, what its elements are, read
by plain arithmetic on the registers' contents, and what a state and a run are called (spec/70_reset_and_hazards.md
R85, R90). -/

namespace Sys2Proof.Machine

/-! ## What an instruction sees, by arithmetic on register contents -/

/-- Element `e` of `Z[r]`, of `size` bits, as an unsigned number (R12). -/
def State.zElem (s : State) (r : ZReg) (size e : Nat) : Nat := s.zNat r / 2 ^ (e * size) % 2 ^ size

/-- Element `e` of `size` bits is active under `P[g]` (R15). -/
def State.isActive (s : State) (g : PReg) (size e : Nat) : Prop := (s.pNat g).testBit (e * (size / 8)) = true

/-- The source integer of element `e`: the low `s_esize` bits of the source element (R40, R65). -/
def State.sourceInt (s : State) (i : Instr) (e : Nat) : Nat :=
  s.zNat i.zn / 2 ^ (e * i.elemSize.bits) % 2 ^ i.srcSize.bits

/-- The conversion of element `e` (R62). -/
def State.conversion (s : State) (i : Instr) (e : Nat) : Conversion i.dstSize :=
  ucvt (s.sourceInt i e) i.dstSize s.rounding

/-- Some active element's conversion is inexact: `ix` of R69. -/
def State.someInexact (s : State) (i : Instr) : Prop :=
  ∃ e < s.cfg.vl / i.elemSize.bits, s.isActive i.pg i.elemSize.bits e ∧ (s.conversion i e).inexact = true

/-- Some active element's conversion overflows: `of` of R69. -/
def State.someOverflow (s : State) (i : Instr) : Prop :=
  ∃ e < s.cfg.vl / i.elemSize.bits, s.isActive i.pg i.elemSize.bits e ∧ (s.conversion i e).overflow = true

/-! ## What an instruction needs -/

/-- The latch holds nothing, or a MOVPRFX that meets R60 before a merging instruction (R61 (a), (b)). -/
def LatchAllows (i : Instr) (s : State) : Prop :=
  ∀ m, s.latch = some m →
    i.merging = true ∧ m.zd = i.zd ∧ i.zd ≠ i.zn ∧
      ∀ p, m.pred = some p → p.pg = i.pg ∧ p.esize = i.elemSize.bits

/-- The class's feature pair is implemented (R35). -/
def FeaturePresent (i : Instr) (s : State) : Prop :=
  (i.merging = true → s.cfg.featSve = true ∨ s.cfg.featSme = true) ∧
    (i.merging = false → s.cfg.featSve2p2 = true ∨ s.cfg.featSme2p2 = true)

/-- `FPCR.IXE` is 1 on an implementation that supports trapped exceptions (R17, R70; log entry 12). -/
def InexactTrapEnabled (s : State) : Prop := s.cfg.fpTraps = .supported ∧ s.fpcr.getLsbD 12 = true

/-- `FPCR.OFE` is 1 on an implementation that supports trapped exceptions (R17, R70; log entry 12). -/
def OverflowTrapEnabled (s : State) : Prop := s.cfg.fpTraps = .supported ∧ s.fpcr.getLsbD 10 = true

/-- Everything R86 asks for but the trap enables: the latch, the feature, the access check, and room for the `pc`
(R19). -/
def MayExecute (i : Instr) (s : State) : Prop :=
  LatchAllows i s ∧ FeaturePresent i s ∧ s.cfg.sveAccess = .allowed ∧ s.pc.toNat + 4 < 2 ^ 64

/-! ## What a floating-point result means -/

/-- The value of a normal number of the format (R64). -/
def fpValue (n : ElemSize) (x : Nat) : ℚ :=
  2 ^ ((x / 2 ^ fracBits n : ℤ) - (bias n : ℤ)) * (1 + (x % 2 ^ fracBits n : ℕ) / 2 ^ fracBits n)

/-- One unit in the last kept place of an integer `v` in the format (R67). -/
def ulpOf (n : ElemSize) (v : Nat) : ℚ := 2 ^ ((v.log2 : ℤ) - (fracBits n : ℤ))

/-! ## States and runs -/

/-- A launch state (R85): the registers are arbitrary. -/
def LaunchState (s : State) : Prop :=
  s.pc = s.cfg.entry ∧ s.latch = none ∧ s.outcome = .running

/-- The run is over, successfully (R90). -/
def RunOver (s : State) : Prop := s.outcome = .running ∧ s.pc = s.cfg.endPc

/-- The agent is stuck (R24, R90). -/
def Stuck (s : State) : Prop := s.outcome = .running ∧ s.pc ≠ s.cfg.endPc ∧ s.fetch = none

/-- What every state of a run from an aligned launch state satisfies: it is running, the `pc` is a multiple of 4
(R26), no MOVPRFX is latched (R21: MOVPRFX is not admitted), the text is canonical (R24), and where trapped
exceptions are not supported `FPCR.IXE` and `FPCR.OFE` are 0 (R70). -/
def Inv (s : State) : Prop :=
  s.outcome = .running ∧ s.pc.toNat % 4 = 0 ∧ s.latch = none ∧ s.text.wf ∧
    (s.cfg.fpTraps = .notSupported → s.fpcr.getLsbD 12 = false ∧ s.fpcr.getLsbD 10 = false)

end Sys2Proof.Machine
end

