-- ==== Sys2Proof/Certificates/Slice0/Obligations.lean ====
section
/-! DEFINITION. The statements for the provers, in the order of OBLIGATIONS.json. -/

open Sys2Proof Sys2Proof.Machine

/-! ## Encoding and fetch -/

/-- Decoding an encoded well-formed instruction gives it back, as a word and as bytes (R31 to R36). -/
def Obligations.DecodeEncodeRoundTrip : Prop :=
  ∀ i : Instr, i.wellFormed = true → decodeWord (encode i) = .ok i ∧ decode (encodeBytes i) = .ok i

/-- Every word that decodes is the word of the instruction it decodes to, which is well-formed (R33, R34). -/
def Obligations.EncodeDecodeRoundTrip : Prop :=
  ∀ (w : Word) (i : Instr), decodeWord w = .ok i → i.wellFormed = true ∧ encode i = w

/-- The match table of R33: a word decodes exactly when its masked key is one of the 14 `match` values, to the class of
that row with the operands in the word's fields; any other word is `NotInScope` (R36, R37). -/
def Obligations.DecodeIsTheMatchTable : Prop :=
  ∀ (w : Word) (zd : ZReg) (pg : PReg) (zn : ZReg),
    zd.val = w.toNat % 32 → pg.val = w.toNat / 1024 % 8 → zn.val = w.toNat / 32 % 32 →
    (w &&& 0xFFFFE000 = 0x6553A000 → decodeWord w = .ok (.ucvtfHMergeH zd pg zn)) ∧
    (w &&& 0xFFFFE000 = 0x645CE000 → decodeWord w = .ok (.ucvtfHZeroH zd pg zn)) ∧
    (w &&& 0xFFFFE000 = 0x6555A000 → decodeWord w = .ok (.ucvtfHMergeS zd pg zn)) ∧
    (w &&& 0xFFFFE000 = 0x645DA000 → decodeWord w = .ok (.ucvtfHZeroS zd pg zn)) ∧
    (w &&& 0xFFFFE000 = 0x6595A000 → decodeWord w = .ok (.ucvtfSMergeS zd pg zn)) ∧
    (w &&& 0xFFFFE000 = 0x649DA000 → decodeWord w = .ok (.ucvtfSZeroS zd pg zn)) ∧
    (w &&& 0xFFFFE000 = 0x65D1A000 → decodeWord w = .ok (.ucvtfDMergeS zd pg zn)) ∧
    (w &&& 0xFFFFE000 = 0x64DCA000 → decodeWord w = .ok (.ucvtfDZeroS zd pg zn)) ∧
    (w &&& 0xFFFFE000 = 0x6557A000 → decodeWord w = .ok (.ucvtfHMergeD zd pg zn)) ∧
    (w &&& 0xFFFFE000 = 0x645DE000 → decodeWord w = .ok (.ucvtfHZeroD zd pg zn)) ∧
    (w &&& 0xFFFFE000 = 0x65D5A000 → decodeWord w = .ok (.ucvtfSMergeD zd pg zn)) ∧
    (w &&& 0xFFFFE000 = 0x64DDA000 → decodeWord w = .ok (.ucvtfSZeroD zd pg zn)) ∧
    (w &&& 0xFFFFE000 = 0x65D7A000 → decodeWord w = .ok (.ucvtfDMergeD zd pg zn)) ∧
    (w &&& 0xFFFFE000 = 0x64DDE000 → decodeWord w = .ok (.ucvtfDZeroD zd pg zn)) ∧
    (∀ i, decodeWord w = .ok i →
      w &&& 0xFFFFE000 ∈ ([0x6553A000, 0x645CE000, 0x6555A000, 0x645DA000, 0x6595A000, 0x649DA000, 0x65D1A000,
        0x64DCA000, 0x6557A000, 0x645DE000, 0x65D5A000, 0x64DDA000, 0x65D7A000, 0x64DDE000] : List Word) ∧
      i.zd = zd ∧ i.zn = zn ∧ i.pg = pg) ∧
    (w &&& 0xFFFFE000 ∉ ([0x6553A000, 0x645CE000, 0x6555A000, 0x645DA000, 0x6595A000, 0x649DA000, 0x65D1A000,
        0x64DCA000, 0x6557A000, 0x645DE000, 0x65D5A000, 0x64DDA000, 0x65D7A000, 0x64DDE000] : List Word) →
      decodeWord w = .error (.notInScope w))

/-- Words of spec/95_test_vectors.md L2.6, one of each class, decode to what their assembly says. -/
def Obligations.SpecWordsDecode : Prop :=
  decodeWord 0x6553A863 = .ok (.ucvtfHMergeH 3 2 3) ∧ decodeWord 0x645CE000 = .ok (.ucvtfHZeroH 0 0 0) ∧
  decodeWord 0x6555A507 = .ok (.ucvtfHMergeS 7 1 8) ∧ decodeWord 0x645DADB7 = .ok (.ucvtfHZeroS 23 3 13) ∧
  decodeWord 0x6595A441 = .ok (.ucvtfSMergeS 1 1 2) ∧ decodeWord 0x649DAC42 = .ok (.ucvtfSZeroS 2 3 2) ∧
  decodeWord 0x65D1A0C5 = .ok (.ucvtfDMergeS 5 0 6) ∧ decodeWord 0x64DCB0C7 = .ok (.ucvtfDZeroS 7 4 6) ∧
  decodeWord 0x6557B149 = .ok (.ucvtfHMergeD 9 4 10) ∧ decodeWord 0x645DE883 = .ok (.ucvtfHZeroD 3 2 4) ∧
  decodeWord 0x65D5A0A5 = .ok (.ucvtfSMergeD 5 0 5) ∧ decodeWord 0x64DDBBBE = .ok (.ucvtfSZeroD 30 6 29) ∧
  decodeWord 0x65D7BFFF = .ok (.ucvtfDMergeD 31 7 31) ∧ decodeWord 0x64DDFFFF = .ok (.ucvtfDZeroD 31 7 31)

/-- A word loaded at an aligned address is fetched from there, its bits 7:0 from the lowest byte, every other
aligned word is as it was, and no word is fetched from a misaligned address (R24 to R26). -/
def Obligations.FetchReadsLoadedWord : Prop :=
  ∀ (m : Memory) (a b : Addr) (w : Word),
    (a.toNat % 4 = 0 → (m.putWord a w).readWord a = some w ∧
      (m.putWord a w).read a.toNat = some (w.extractLsb' 0 8) ∧
      (m.putWord a w).read (a.toNat + 3) = some (w.extractLsb' 24 8)) ∧
    (b ≠ a → (m.putWord a w).readWord b = m.readWord b) ∧
    (b.toNat % 4 ≠ 0 → m.readWord b = none)

/-- The instruction loaded where the machine fetches next is the one the next step runs. The load is the model's choice
(log entry 22): `withFetchWord` puts the word at `pc`, moves an `end_pc` that stands there and sets `outcome` to
`Running`; that the step then fetches, decodes and executes it is R24 and R36. -/
def Obligations.LoadedInstructionRunsNext : Prop :=
  ∀ (s : State) (i : Instr), i.wellFormed = true → s.pc.toNat % 4 = 0 →
    step (s.withFetchWord 32 (encode i).toNat) = exec i (s.withFetchWord 32 (encode i).toNat)

/-! ## The step -/

/-- A step runs the decoded instruction: where the word at the `pc` decodes to `i`, the step is `exec i`, which does
everything, the advance of the `pc` included (R19, R24, R36). -/
def Obligations.StepRunsDecodedInstruction : Prop :=
  ∀ (s : State) (w : Word) (i : Instr), s.outcome = .running → s.pc ≠ s.cfg.endPc → s.fetch = some w →
    decodeWord w = .ok i → step s = exec i s

/-- The decoder is total: for a word that matches one of the 14 patterns it answers the well-formed instruction whose word
it is, and `NotInScope` for any other. A fetched word that matches none is refused `NotInScope`, never
UNDEFINED and never a no-op, and nothing but `outcome` is written (R37, which is the spec's decision D1; R74). -/
def Obligations.WordsOutOfScopeRefused : Prop :=
  (∀ w : Word,
    (w &&& 0xFFFFE000 ∈ ([0x6553A000, 0x645CE000, 0x6555A000, 0x645DA000, 0x6595A000, 0x649DA000, 0x65D1A000,
        0x64DCA000, 0x6557A000, 0x645DE000, 0x65D5A000, 0x64DDA000, 0x65D7A000, 0x64DDE000] : List Word) →
      ∃ i, decodeWord w = .ok i ∧ i.wellFormed = true ∧ encode i = w) ∧
    (w &&& 0xFFFFE000 ∉ ([0x6553A000, 0x645CE000, 0x6555A000, 0x645DA000, 0x6595A000, 0x649DA000, 0x65D1A000,
        0x64DCA000, 0x6557A000, 0x645DE000, 0x65D5A000, 0x64DDA000, 0x65D7A000, 0x64DDE000] : List Word) →
      decodeWord w = .error (.notInScope w))) ∧
  ∀ (s : State) (w : Word), s.outcome = .running → s.pc ≠ s.cfg.endPc → s.fetch = some w →
    w &&& 0xFFFFE000 ∉ ([0x6553A000, 0x645CE000, 0x6555A000, 0x645DA000, 0x6595A000, 0x649DA000, 0x65D1A000,
        0x64DCA000, 0x6557A000, 0x645DE000, 0x65D5A000, 0x64DDA000, 0x65D7A000, 0x64DDE000] : List Word) →
      step s = .refused (.notInScope w) ∧ advance s = { s with outcome := .refused (.notInScope w) }

/-- At `end_pc` the run is over, and outside the text the agent is stuck: no step, and nothing is written (R24, R90).
That the host's interface is answered by these two refusals is the model's choice (log entry 16). -/
def Obligations.NoStepAtEndOrOutsideText : Prop :=
  ∀ s : State,
    (s.outcome = .running ∧ s.pc = s.cfg.endPc → step s = .refused .runOver ∧ advance s = s) ∧
    (s.outcome = .running ∧ s.pc ≠ s.cfg.endPc ∧ s.text.readWord s.pc = none →
      step s = .refused .stuck ∧ advance s = s)

/-- A stop is recorded in `outcome` and writes nothing else, and it is terminal and sticky (R74, R75). -/
def Obligations.StopsAreTerminalAndSticky : Prop :=
  (∀ (i : Instr) (s : State) (r : Fault), exec i s = .fault r →
    s.settle (exec i s) = { s with outcome := .fault r }) ∧
  (∀ (i : Instr) (s : State) (r : Refusal), exec i s = .refused r →
    s.settle (exec i s) = { s with outcome := .refused r }) ∧
  ∀ s : State, s.outcome ≠ .running → (∀ t, step s ≠ .next t) ∧ ∀ k, advance^[k] s = s

/-! ## The tests of an instruction -/

/-- R35: without its feature pair an instruction is UNDEFINED, whatever the other two flags and the access check
say; the fault reports its word. The latch, which the spec puts first by its own choice (R76), lets it through. -/
def Obligations.FeatureGateUndefined : Prop :=
  ∀ (i : Instr) (s : State), LatchAllows i s →
    (i.merging = true → s.cfg.featSve = false → s.cfg.featSme = false →
      exec i s = .fault (.undefinedInstruction (encode i))) ∧
    (i.merging = false → s.cfg.featSve2p2 = false → s.cfg.featSme2p2 = false →
      exec i s = .fault (.undefinedInstruction (encode i)))

/-- The SVE access check: `Undefined` makes the instruction UNDEFINED, `Trapped(info)` faults with `info`, before
the predicate is read (R78). -/
def Obligations.SveAccessCheckStops : Prop :=
  ∀ (i : Instr) (s : State), LatchAllows i s → FeaturePresent i s →
    (s.cfg.sveAccess = .undefined → exec i s = .fault (.undefinedInstruction (encode i))) ∧
    ∀ info, s.cfg.sveAccess = .trapped info → exec i s = .fault (.sveAccess info)

/-- The MOVPRFX latch: a conforming MOVPRFX before a merging instruction changes nothing in what it does (R61 (b));
any other latched MOVPRFX is refused, whatever else holds (R61 (c) and (d)). -/
def Obligations.MovprfxLatchRules : Prop :=
  ∀ (i : Instr) (s : State),
    (LatchAllows i s → exec i s = exec i { s with latch := none }) ∧
    (∀ m, s.latch = some m → i.merging = false → exec i s = .refused .movprfxUnpredictable) ∧
    (∀ m, s.latch = some m → i.merging = true →
      (m.zd ≠ i.zd ∨ i.zd = i.zn ∨ ∃ p, m.pred = some p ∧ (p.pg ≠ i.pg ∨ p.esize ≠ i.elemSize.bits)) →
      exec i s = .refused .movprfxUnpredictable)

/-- Past the other tests, an instruction is refused `TrappedFP` exactly when Inexact arises in an active element with
its trap enabled or Overflow does (R70). That a trap-enable bit counts only where trapped exceptions are supported is
DEDUCED (log entry 12). -/
def Obligations.TrappedExactlyWhenEnabled : Prop :=
  ∀ (i : Instr) (s : State), LatchAllows i s → FeaturePresent i s → s.cfg.sveAccess = .allowed →
    (exec i s = .refused .trappedFP ↔
      (InexactTrapEnabled s ∧ s.someInexact i) ∨ (OverflowTrapEnabled s ∧ s.someOverflow i))

/-- Where trapped exceptions are not supported no instruction is refused `TrappedFP`, whatever FPCR's stored bits are
(R17, R70). That the stored bits read as zero there is DEDUCED (log entry 12). -/
def Obligations.NotSupportedNeverTraps : Prop :=
  ∀ (i : Instr) (s : State), s.cfg.fpTraps = .notSupported → exec i s ≠ .refused .trappedFP

/-- An instruction that would complete where `pc + 4` does not fit in 64 bits is refused `PcWrap` (R19). That this is
the last of the tests is DEDUCED (log entry 15). -/
def Obligations.PcWrapRefused : Prop :=
  ∀ (i : Instr) (s : State), LatchAllows i s → FeaturePresent i s → s.cfg.sveAccess = .allowed →
    ¬ (InexactTrapEnabled s ∧ s.someInexact i) → ¬ (OverflowTrapEnabled s ∧ s.someOverflow i) →
    2 ^ 64 ≤ s.pc.toNat + 4 → exec i s = .refused .pcWrap

/-- Every stop of an instruction is one of R73's, for the cause R73 gives it. -/
def Obligations.EveryStopIsListed : Prop :=
  ∀ (i : Instr) (s : State),
    (∀ r, exec i s = .fault r →
      (r = .undefinedInstruction (encode i) ∧ (¬ FeaturePresent i s ∨ s.cfg.sveAccess = .undefined)) ∨
      ∃ info, r = .sveAccess info ∧ s.cfg.sveAccess = .trapped info) ∧
    (∀ r, exec i s = .refused r →
      (r = .movprfxUnpredictable ∧ ¬ LatchAllows i s) ∨
      (r = .trappedFP ∧
        ((InexactTrapEnabled s ∧ s.someInexact i) ∨ (OverflowTrapEnabled s ∧ s.someOverflow i))) ∨
      (r = .pcWrap ∧ 2 ^ 64 ≤ s.pc.toNat + 4))

/-- An instruction completes exactly when it may execute (R86) and no enabled floating-point exception arises (R70).
What counts as enabled is log entry 12's. -/
def Obligations.CompletesExactlyWhen : Prop :=
  ∀ (i : Instr) (s : State),
    (∃ t, exec i s = .next t) ↔
      MayExecute i s ∧ ¬ (InexactTrapEnabled s ∧ s.someInexact i) ∧ ¬ (OverflowTrapEnabled s ∧ s.someOverflow i)

/-! ## What each instruction computes -/

/-- R45, R46: 16-bit to half-precision, in 16-bit elements governed by the even predicate bits. -/
def Obligations.HalfFromHalfwordResult : Prop :=
  ∀ (zd : ZReg) (pg : PReg) (zn : ZReg) (s : State),
    (MayExecute (.ucvtfHMergeH zd pg zn) s →
      ¬ (InexactTrapEnabled s ∧ s.someInexact (.ucvtfHMergeH zd pg zn)) →
      ¬ (OverflowTrapEnabled s ∧ s.someOverflow (.ucvtfHMergeH zd pg zn)) →
      ∃ t, exec (.ucvtfHMergeH zd pg zn) s = .next t ∧
        ∀ e < s.cfg.vl / 16, t.zElem zd 16 e =
          if (s.pNat pg).testBit (2 * e) then (ucvt (s.zElem zn 16 e) .h s.rounding).bits.toNat
          else s.zElem zd 16 e) ∧
    (MayExecute (.ucvtfHZeroH zd pg zn) s →
      ¬ (InexactTrapEnabled s ∧ s.someInexact (.ucvtfHZeroH zd pg zn)) →
      ¬ (OverflowTrapEnabled s ∧ s.someOverflow (.ucvtfHZeroH zd pg zn)) →
      ∃ t, exec (.ucvtfHZeroH zd pg zn) s = .next t ∧
        ∀ e < s.cfg.vl / 16, t.zElem zd 16 e =
          if (s.pNat pg).testBit (2 * e) then (ucvt (s.zElem zn 16 e) .h s.rounding).bits.toNat else 0)

/-- R47, R48: 32-bit to half-precision, in 32-bit elements whose bits 31:16 become zero. -/
def Obligations.HalfFromWordResult : Prop :=
  ∀ (zd : ZReg) (pg : PReg) (zn : ZReg) (s : State),
    (MayExecute (.ucvtfHMergeS zd pg zn) s →
      ¬ (InexactTrapEnabled s ∧ s.someInexact (.ucvtfHMergeS zd pg zn)) →
      ¬ (OverflowTrapEnabled s ∧ s.someOverflow (.ucvtfHMergeS zd pg zn)) →
      ∃ t, exec (.ucvtfHMergeS zd pg zn) s = .next t ∧
        ∀ e < s.cfg.vl / 32, t.zElem zd 32 e =
          if (s.pNat pg).testBit (4 * e) then (ucvt (s.zElem zn 32 e) .h s.rounding).bits.toNat
          else s.zElem zd 32 e) ∧
    (MayExecute (.ucvtfHZeroS zd pg zn) s →
      ¬ (InexactTrapEnabled s ∧ s.someInexact (.ucvtfHZeroS zd pg zn)) →
      ¬ (OverflowTrapEnabled s ∧ s.someOverflow (.ucvtfHZeroS zd pg zn)) →
      ∃ t, exec (.ucvtfHZeroS zd pg zn) s = .next t ∧
        ∀ e < s.cfg.vl / 32, t.zElem zd 32 e =
          if (s.pNat pg).testBit (4 * e) then (ucvt (s.zElem zn 32 e) .h s.rounding).bits.toNat else 0)

/-- R49, R50: 32-bit to single-precision. Overflow cannot arise, so an enabled Overflow trap stops nothing and OFC
is left as it was. -/
def Obligations.SingleFromWordResult : Prop :=
  ∀ (zd : ZReg) (pg : PReg) (zn : ZReg) (s : State),
    (MayExecute (.ucvtfSMergeS zd pg zn) s →
      ¬ (InexactTrapEnabled s ∧ s.someInexact (.ucvtfSMergeS zd pg zn)) →
      ∃ t, exec (.ucvtfSMergeS zd pg zn) s = .next t ∧ t.fpsr.getLsbD 2 = s.fpsr.getLsbD 2 ∧
        ∀ e < s.cfg.vl / 32, t.zElem zd 32 e =
          if (s.pNat pg).testBit (4 * e) then (ucvt (s.zElem zn 32 e) .s s.rounding).bits.toNat
          else s.zElem zd 32 e) ∧
    (MayExecute (.ucvtfSZeroS zd pg zn) s →
      ¬ (InexactTrapEnabled s ∧ s.someInexact (.ucvtfSZeroS zd pg zn)) →
      ∃ t, exec (.ucvtfSZeroS zd pg zn) s = .next t ∧ t.fpsr.getLsbD 2 = s.fpsr.getLsbD 2 ∧
        ∀ e < s.cfg.vl / 32, t.zElem zd 32 e =
          if (s.pNat pg).testBit (4 * e) then (ucvt (s.zElem zn 32 e) .s s.rounding).bits.toNat else 0)

/-- R51, R52: 32-bit to double-precision. The source is the low half of each 64-bit element; no floating-point
exception can arise, so no trap enable stops it, FPSR is left as it was, and the rounding mode does not matter. -/
def Obligations.DoubleFromWordResult : Prop :=
  ∀ (zd : ZReg) (pg : PReg) (zn : ZReg) (s : State) (rmode : RMode),
    (MayExecute (.ucvtfDMergeS zd pg zn) s →
      ∃ t, exec (.ucvtfDMergeS zd pg zn) s = .next t ∧ t.fpsr = s.fpsr ∧
        ∀ e < s.cfg.vl / 64, t.zElem zd 64 e =
          if (s.pNat pg).testBit (8 * e) then (ucvt (s.zElem zn 64 e % 2 ^ 32) .d rmode).bits.toNat
          else s.zElem zd 64 e) ∧
    (MayExecute (.ucvtfDZeroS zd pg zn) s →
      ∃ t, exec (.ucvtfDZeroS zd pg zn) s = .next t ∧ t.fpsr = s.fpsr ∧
        ∀ e < s.cfg.vl / 64, t.zElem zd 64 e =
          if (s.pNat pg).testBit (8 * e) then (ucvt (s.zElem zn 64 e % 2 ^ 32) .d rmode).bits.toNat else 0)

/-- R53, R54: 64-bit to half-precision, in 64-bit elements whose bits 63:16 become zero. -/
def Obligations.HalfFromDoublewordResult : Prop :=
  ∀ (zd : ZReg) (pg : PReg) (zn : ZReg) (s : State),
    (MayExecute (.ucvtfHMergeD zd pg zn) s →
      ¬ (InexactTrapEnabled s ∧ s.someInexact (.ucvtfHMergeD zd pg zn)) →
      ¬ (OverflowTrapEnabled s ∧ s.someOverflow (.ucvtfHMergeD zd pg zn)) →
      ∃ t, exec (.ucvtfHMergeD zd pg zn) s = .next t ∧
        ∀ e < s.cfg.vl / 64, t.zElem zd 64 e =
          if (s.pNat pg).testBit (8 * e) then (ucvt (s.zElem zn 64 e) .h s.rounding).bits.toNat
          else s.zElem zd 64 e) ∧
    (MayExecute (.ucvtfHZeroD zd pg zn) s →
      ¬ (InexactTrapEnabled s ∧ s.someInexact (.ucvtfHZeroD zd pg zn)) →
      ¬ (OverflowTrapEnabled s ∧ s.someOverflow (.ucvtfHZeroD zd pg zn)) →
      ∃ t, exec (.ucvtfHZeroD zd pg zn) s = .next t ∧
        ∀ e < s.cfg.vl / 64, t.zElem zd 64 e =
          if (s.pNat pg).testBit (8 * e) then (ucvt (s.zElem zn 64 e) .h s.rounding).bits.toNat else 0)

/-- R55, R56: 64-bit to single-precision, in 64-bit elements whose bits 63:32 become zero; overflow cannot arise. -/
def Obligations.SingleFromDoublewordResult : Prop :=
  ∀ (zd : ZReg) (pg : PReg) (zn : ZReg) (s : State),
    (MayExecute (.ucvtfSMergeD zd pg zn) s →
      ¬ (InexactTrapEnabled s ∧ s.someInexact (.ucvtfSMergeD zd pg zn)) →
      ∃ t, exec (.ucvtfSMergeD zd pg zn) s = .next t ∧ t.fpsr.getLsbD 2 = s.fpsr.getLsbD 2 ∧
        ∀ e < s.cfg.vl / 64, t.zElem zd 64 e =
          if (s.pNat pg).testBit (8 * e) then (ucvt (s.zElem zn 64 e) .s s.rounding).bits.toNat
          else s.zElem zd 64 e) ∧
    (MayExecute (.ucvtfSZeroD zd pg zn) s →
      ¬ (InexactTrapEnabled s ∧ s.someInexact (.ucvtfSZeroD zd pg zn)) →
      ∃ t, exec (.ucvtfSZeroD zd pg zn) s = .next t ∧ t.fpsr.getLsbD 2 = s.fpsr.getLsbD 2 ∧
        ∀ e < s.cfg.vl / 64, t.zElem zd 64 e =
          if (s.pNat pg).testBit (8 * e) then (ucvt (s.zElem zn 64 e) .s s.rounding).bits.toNat else 0)

/-- R57, R58: 64-bit to double-precision; overflow cannot arise. -/
def Obligations.DoubleFromDoublewordResult : Prop :=
  ∀ (zd : ZReg) (pg : PReg) (zn : ZReg) (s : State),
    (MayExecute (.ucvtfDMergeD zd pg zn) s →
      ¬ (InexactTrapEnabled s ∧ s.someInexact (.ucvtfDMergeD zd pg zn)) →
      ∃ t, exec (.ucvtfDMergeD zd pg zn) s = .next t ∧ t.fpsr.getLsbD 2 = s.fpsr.getLsbD 2 ∧
        ∀ e < s.cfg.vl / 64, t.zElem zd 64 e =
          if (s.pNat pg).testBit (8 * e) then (ucvt (s.zElem zn 64 e) .d s.rounding).bits.toNat
          else s.zElem zd 64 e) ∧
    (MayExecute (.ucvtfDZeroD zd pg zn) s →
      ¬ (InexactTrapEnabled s ∧ s.someInexact (.ucvtfDZeroD zd pg zn)) →
      ∃ t, exec (.ucvtfDZeroD zd pg zn) s = .next t ∧ t.fpsr.getLsbD 2 = s.fpsr.getLsbD 2 ∧
        ∀ e < s.cfg.vl / 64, t.zElem zd 64 e =
          if (s.pNat pg).testBit (8 * e) then (ucvt (s.zElem zn 64 e) .d s.rounding).bits.toNat else 0)

/-- Every active element of every encoding becomes its conversion, zero-extended: the upper bits of a wider element
are zero, in merging classes too (R40). -/
def Obligations.ActiveElementsConverted : Prop :=
  ∀ (i : Instr) (s t : State), exec i s = .next t → ∀ e < s.cfg.vl / i.elemSize.bits,
    s.isActive i.pg i.elemSize.bits e →
      t.zElem i.zd i.elemSize.bits e = (ucvt (s.sourceInt i e) i.dstSize s.rounding).bits.toNat ∧
      t.zElem i.zd i.elemSize.bits e < 2 ^ i.dstSize.bits

/-- R42: inactive elements are unmodified or zero, whole; with no active element a merging form leaves `Z[d]` as it
was and a zeroing form sets all of it to zero, which R42 marks as the spec's own inference ("derived: from rule R39"),
and FPSR is unchanged (R69: inactive elements signal nothing). -/
def Obligations.InactiveElementsKeptOrZeroed : Prop :=
  ∀ (i : Instr) (s t : State), exec i s = .next t →
    (∀ e < s.cfg.vl / i.elemSize.bits, ¬ s.isActive i.pg i.elemSize.bits e →
      t.zElem i.zd i.elemSize.bits e = if i.merging then s.zElem i.zd i.elemSize.bits e else 0) ∧
    ((∀ e < s.cfg.vl / i.elemSize.bits, ¬ s.isActive i.pg i.elemSize.bits e) →
      t.zNat i.zd = (if i.merging then s.zNat i.zd else 0) ∧ t.fpsr = s.fpsr)

/-- R44, the frame of all 14 encodings: a completed instruction writes `Z[d]`, FPSR.IXC and FPSR.OFC (set or left,
never cleared), the `pc` and the latch, and nothing else, the text read byte by byte included. A stopped one writes
nothing but `outcome`: R74 (the spec's decision D5; log entry 11) for every stop, the refusals of R61 and R19 included. -/
def Obligations.FrameOfEveryEncoding : Prop :=
  ∀ (i : Instr) (s : State),
    (∀ t, exec i s = .next t →
      (∀ r, r ≠ i.zd → t.zNat r = s.zNat r) ∧ (∀ g, t.pNat g = s.pNat g) ∧ t.fpcr = s.fpcr ∧
      (∀ k, k ≠ 4 → k ≠ 2 → t.fpsr.getLsbD k = s.fpsr.getLsbD k) ∧
      (∀ k, s.fpsr.getLsbD k = true → t.fpsr.getLsbD k = true) ∧
      t.pc = s.pc + 4 ∧ t.latch = none ∧ t.outcome = s.outcome ∧ t.cfg = s.cfg ∧
      ∀ a, t.text.read a = s.text.read a) ∧
    (∀ r, exec i s = .fault r → s.settle (exec i s) = { s with outcome := .fault r }) ∧
    (∀ r, exec i s = .refused r → s.settle (exec i s) = { s with outcome := .refused r })

/-- R69: a completed instruction sets IXC exactly when some active element is inexact and OFC exactly when some
active element overflows (and then some is inexact too); bits already 1 stay 1 and no other bit is touched. -/
def Obligations.CumulativeFlags : Prop :=
  ∀ (i : Instr) (s t : State), exec i s = .next t →
    (∀ k, t.fpsr.getLsbD k = true ↔
      s.fpsr.getLsbD k = true ∨ (k = 4 ∧ s.someInexact i) ∨ (k = 2 ∧ s.someOverflow i)) ∧
    (s.someOverflow i → s.someInexact i)

/-! ## What an instruction does not depend on -/

/-- R71: an instruction depends on FPCR only through RMode, IXE and OFE. This is the spec's own inference: R71 marks it
"derived: from rules R67, R69 and R70". -/
def Obligations.FpcrMattersOnlyByRModeAndTraps : Prop :=
  ∀ (i : Instr) (s : State) (v : BitVec 64),
    (∀ k ∈ [10, 12, 22, 23], v.getLsbD k = s.fpcr.getLsbD k) →
    (∀ t, exec i s = .next t → exec i { s with fpcr := v } = .next { t with fpcr := v }) ∧
    (∀ r, exec i s = .fault r → exec i { s with fpcr := v } = .fault r) ∧
    (∀ r, exec i s = .refused r → exec i { s with fpcr := v } = .refused r)

/-- R15, R43 (c): the predicate bits that are not the lowest of an element's group do not matter. -/
def Obligations.IgnoredPredicateBits : Prop :=
  ∀ (i : Instr) (s : State) (q : BitVec s.cfg.pl),
    (∀ e < s.cfg.vl / i.elemSize.bits,
      q.getLsbD (e * (i.elemSize.bits / 8)) = (s.readP i.pg).getLsbD (e * (i.elemSize.bits / 8))) →
    (∀ t, exec i s = .next t → ∃ t', exec i { s with p := s.p.set i.pg.val q } = .next t' ∧
      (∀ r, t'.zNat r = t.zNat r) ∧ t'.fpsr = t.fpsr ∧ t'.pc = t.pc) ∧
    (∀ r, exec i s = .fault r → exec i { s with p := s.p.set i.pg.val q } = .fault r) ∧
    (∀ r, exec i s = .refused r → exec i { s with p := s.p.set i.pg.val q } = .refused r)

/-- R40: where the source is narrower than the element, the upper bits of each source element have no effect on the
flags or on any active element; nor on the rest of `Z[d]`, unless the source register is the destination itself, whose
inactive elements a merging form keeps. -/
def Obligations.SourceUpperBitsIgnored : Prop :=
  ∀ (zd : ZReg) (pg : PReg) (zn : ZReg) (s t : State) (v : BitVec s.cfg.vl) (i : Instr),
    i = .ucvtfDMergeS zd pg zn ∨ i = .ucvtfDZeroS zd pg zn →
    (∀ e < s.cfg.vl / 64, v.toNat / 2 ^ (e * 64) % 2 ^ 32 = s.zNat zn / 2 ^ (e * 64) % 2 ^ 32) →
    exec i s = .next t →
    ∃ t', exec i (s.writeZ zn v) = .next t' ∧ t'.fpsr = t.fpsr ∧
      (∀ e < s.cfg.vl / 64, s.isActive pg 64 e → t'.zElem zd 64 e = t.zElem zd 64 e) ∧
      (zn ≠ zd ∨ i.merging = false → t'.zNat zd = t.zNat zd)

/-- R41: reading the source register only when an element is active cannot be told from reading it always. This is the
spec's own inference: R41 marks it "derived: from rule R39" (log entry 26). -/
def Obligations.SourceReadGatingUnobservable : Prop :=
  ∀ (c : DecodeConstants) (zd : ZReg) (pg : PReg) (zn : ZReg) (s : State),
    convertVector c zd pg zn s =
      convertElements c s.rounding (s.readP pg) (s.readZ zn) (if c.merging then s.readZ zd else 0)
        (s.cfg.vl / c.esize.bits)

/-! ## The conversion -/

/-- The rounding mode is FPCR bits 23:22, in every state, as the table of R66 says; and RM and RZ give identical results,
which is the spec's own inference: R66 marks it "derived: from rule R67". -/
def Obligations.RoundingModeField : Prop :=
  (∀ s : State,
    (s.fpcr.getLsbD 23 = false → s.fpcr.getLsbD 22 = false → s.rounding = .rn) ∧
    (s.fpcr.getLsbD 23 = false → s.fpcr.getLsbD 22 = true → s.rounding = .rp) ∧
    (s.fpcr.getLsbD 23 = true → s.fpcr.getLsbD 22 = false → s.rounding = .rm) ∧
    (s.fpcr.getLsbD 23 = true → s.fpcr.getLsbD 22 = true → s.rounding = .rz)) ∧
  ∀ (v : Nat) (n : ElemSize), ucvt v n .rm = ucvt v n .rz

/-- R67, in the words of its equivalent statement: a result that does not overflow is the value of the format nearest
to the integer in the direction the mode says, ties to even, and Inexact is signalled exactly when it differs. Toward
minus infinity or zero the result is not below `2 ^ log2 v`: under it the format's values stand closer than one unit of `v`,
so that a value there could be within one unit of `v` and yet not be the nearest. -/
def Obligations.ConversionRoundsCorrectly : Prop :=
  ∀ (n : ElemSize) (rmode : RMode) (v : Nat), 0 < v → v < 2 ^ 64 → (ucvt v n rmode).overflow = false →
    ((ucvt v n rmode).inexact = true ↔ fpValue n (ucvt v n rmode).bits.toNat ≠ v) ∧
    (rmode = .rp → (v : ℚ) ≤ fpValue n (ucvt v n rmode).bits.toNat ∧
      fpValue n (ucvt v n rmode).bits.toNat < v + ulpOf n v) ∧
    (rmode = .rm ∨ rmode = .rz → (2 : ℚ) ^ v.log2 ≤ fpValue n (ucvt v n rmode).bits.toNat ∧
      fpValue n (ucvt v n rmode).bits.toNat ≤ v ∧
      (v : ℚ) < fpValue n (ucvt v n rmode).bits.toNat + ulpOf n v) ∧
    (rmode = .rn → |fpValue n (ucvt v n rmode).bits.toNat - v| ≤ ulpOf n v / 2 ∧
      (|fpValue n (ucvt v n rmode).bits.toNat - v| = ulpOf n v / 2 → (ucvt v n rmode).bits.toNat % 2 = 0))

/-- R72: the conversion is monotonic non-decreasing in the integer, for each format and mode, read as bit patterns. -/
def Obligations.ConversionMonotonic : Prop :=
  ∀ (n : ElemSize) (rmode : RMode) (v v' : Nat), v ≤ v' → v' < 2 ^ 64 →
    (ucvt v n rmode).bits.toNat ≤ (ucvt v' n rmode).bits.toNat

/-- R72: every integer up to 2048 (half), 16777216 (single) and 2^53 (double) converts to exactly itself. -/
def Obligations.SmallIntegersExact : Prop :=
  ∀ (n : ElemSize) (rmode : RMode) (v : Nat), 0 < v →
    v ≤ (match n with | .h => 2048 | .s => 16777216 | .d => 2 ^ 53) →
    (ucvt v n rmode).inexact = false ∧ (ucvt v n rmode).overflow = false ∧
      fpValue n (ucvt v n rmode).bits.toNat = v

/-- R68: half-precision overflows from 65520 (RN), 65505 (RP) and 65536 (RM, RZ) on, and nowhere below; the other
formats never do for a 64-bit integer; on overflow the result is +infinity or the largest finite number, and Inexact
is signalled too. The thresholds are the spec's own inference: R68 marks them "derived: from rule R67". -/
def Obligations.OverflowExactlyAtThresholds : Prop :=
  ∀ v : Nat, v < 2 ^ 64 →
    ((ucvt v .h .rn).overflow = true ↔ 65520 ≤ v) ∧ ((ucvt v .h .rp).overflow = true ↔ 65505 ≤ v) ∧
    ((ucvt v .h .rm).overflow = true ↔ 65536 ≤ v) ∧ ((ucvt v .h .rz).overflow = true ↔ 65536 ≤ v) ∧
    (∀ rmode, (ucvt v .s rmode).overflow = false ∧ (ucvt v .d rmode).overflow = false) ∧
    (∀ rmode, (ucvt v .h rmode).overflow = true → (ucvt v .h rmode).inexact = true ∧
      (ucvt v .h rmode).bits = if rmode = .rn ∨ rmode = .rp then 0x7C00 else 0x7BFF)

/-- R51, R72: a 32-bit integer always converts exactly to double-precision, the same in every mode. -/
def Obligations.WordToDoubleAlwaysExact : Prop :=
  ∀ (v : Nat) (rmode rmode' : RMode), v < 2 ^ 32 →
    ucvt v .d rmode = ucvt v .d rmode' ∧ (ucvt v .d rmode).inexact = false ∧ (ucvt v .d rmode).overflow = false

/-- R72: a power of two in range is exact, with biased exponent `j + bias` and fraction zero. -/
def Obligations.PowersOfTwoExact : Prop :=
  ∀ (n : ElemSize) (rmode : RMode) (j : Nat), j ≤ bias n →
    (ucvt (2 ^ j) n rmode).bits.toNat = (j + bias n) * 2 ^ fracBits n ∧
      (ucvt (2 ^ j) n rmode).inexact = false ∧ (ucvt (2 ^ j) n rmode).overflow = false

/-- R43 (d), R64: zero gives +0.0; no result is negative, denormal or a NaN, and infinity comes only by overflow. -/
def Obligations.ResultsAreNonnegativeNumbers : Prop :=
  ∀ (n : ElemSize) (rmode : RMode) (v : Nat), v < 2 ^ 64 →
    (ucvt v n rmode).bits.toNat < 2 ^ (n.bits - 1) ∧
    (v = 0 → ucvt v n rmode = { bits := 0, inexact := false, overflow := false }) ∧
    (0 < v → 1 ≤ (ucvt v n rmode).bits.toNat / 2 ^ fracBits n) ∧
    ((ucvt v n rmode).bits.toNat / 2 ^ fracBits n = 2 ^ expBits n - 1 →
      (ucvt v n rmode).bits.toNat % 2 ^ fracBits n = 0 ∧ (ucvt v n rmode).overflow = true)

/-! ## Registers -/

/-- R25, R12: the same register read at another element size sees the bits in place. After 64-bit element `e` of `Z[r]` is
written with `x`, 16-bit elements `4e` to `4e + 3` and 32-bit elements `2e` and `2e + 1` are the parts of `x`, the least
significant first, and every other element is as it was; in any state the 64-bit element is its parts side by side; and
`zElem`, by which the statements read a register, reads what the machine's element access does. -/
def Obligations.MixedWidthView : Prop :=
  (∀ (s : State) (r : ZReg) (e : Nat) (x : BitVec 64), e < s.cfg.vl / 64 →
    (∀ j < 4, elemGet ((s.writeZ r (elemSet (s.readZ r) e 64 x)).readZ r) (4 * e + j) 16 =
      x.extractLsb' (16 * j) 16) ∧
    (∀ j < 2, elemGet ((s.writeZ r (elemSet (s.readZ r) e 64 x)).readZ r) (2 * e + j) 32 =
      x.extractLsb' (32 * j) 32) ∧
    (∀ k, k / 4 ≠ e →
      elemGet ((s.writeZ r (elemSet (s.readZ r) e 64 x)).readZ r) k 16 = elemGet (s.readZ r) k 16) ∧
    (∀ k, k / 2 ≠ e →
      elemGet ((s.writeZ r (elemSet (s.readZ r) e 64 x)).readZ r) k 32 = elemGet (s.readZ r) k 32)) ∧
  (∀ (s : State) (r : ZReg) (e : Nat),
    elemGet (s.readZ r) e 64 = elemGet (s.readZ r) (2 * e + 1) 32 ++ elemGet (s.readZ r) (2 * e) 32 ∧
    elemGet (s.readZ r) e 64 = elemGet (s.readZ r) (4 * e + 3) 16 ++ elemGet (s.readZ r) (4 * e + 2) 16 ++
      elemGet (s.readZ r) (4 * e + 1) 16 ++ elemGet (s.readZ r) (4 * e) 16) ∧
  ∀ (s : State) (r : ZReg) (size e : Nat), (elemGet (s.readZ r) e size).toNat = s.zElem r size e

/-- R11: `V<n>` and its narrower names are the low bits of `Z<n>`: a write of `Z[d]` shows in them and in those of no
other register. -/
def Obligations.LowRegisterViews : Prop :=
  ∀ (s : State) (d r : ZReg) (v : BitVec s.cfg.vl) (width : Nat),
    (s.writeZ d v).readLow d width = v.setWidth width ∧
    (r ≠ d → (s.writeZ d v).readLow r width = s.readLow r width)

/-! ## Reset, invariants and runs -/

/-- R22, R85: after reset the `pc` is `entry`, no MOVPRFX is latched and the run is `Running`. -/
def Obligations.ResetIsLaunchState : Prop :=
  LaunchState State.reset

/-- The invariant of Safety.lean holds after reset. That the text is empty, the `pc` 0x1000 and FPCR zero there is the
model's choice (log entries 1, 4, 6 and 22). -/
def Obligations.ResetMeetsInv : Prop :=
  Inv State.reset

/-- Every step from a state that meets the invariant leads to one that does (R21, R24, R26, R70, R74). -/
def Obligations.StepKeepsInv : Prop :=
  ∀ s t : State, Inv s → step s = .next t → Inv t

/-- R94: over a run of any length, from any state, the run parameters, FPCR, every predicate register and the text
hold their launch values, FPSR changes only by bits 4 and 2 going from 0 to 1, and a `Z` register changes only when
an instruction that was passed names it as `Zd`. These consequences are the spec's own inference: R94 marks each of them
"derived: from rule R44" and rule R37. -/
def Obligations.RunKeepsLaunchValues : Prop :=
  ∀ (k : Nat) (s t : State), Host.Core.run Sys2Proof.core k s = .next t →
    t.cfg = s.cfg ∧ t.fpcr = s.fpcr ∧ (∀ g, t.pNat g = s.pNat g) ∧ t.text = s.text ∧
    (∀ j, s.fpsr.getLsbD j = true → t.fpsr.getLsbD j = true) ∧
    (∀ j, j ≠ 4 → j ≠ 2 → t.fpsr.getLsbD j = s.fpsr.getLsbD j) ∧
    ∀ r, (∀ j < k, ∀ w i, s.text.readWord (s.pc + BitVec.ofNat 64 (4 * j)) = some w → decodeWord w = .ok i →
      i.zd ≠ r) → t.zNat r = s.zNat r

/-- R92: a run is straight-line: after `k` steps the `pc` has advanced by exactly `4 * k` without wrapping, and the
instruction at `pc + 4 * j` is the one the `j`-th step ran. -/
def Obligations.RunIsStraightLine : Prop :=
  ∀ (k : Nat) (s t : State), Host.Core.run Sys2Proof.core k s = .next t →
    t.pc.toNat = s.pc.toNat + 4 * k ∧
    ∀ j < k, ∃ u w i, Host.Core.run Sys2Proof.core j s = .next u ∧
      s.text.readWord (s.pc + BitVec.ofNat 64 (4 * j)) = some w ∧ decodeWord w = .ok i ∧
      Host.Core.run Sys2Proof.core (j + 1) s = exec i u

/-- R90: a run takes at most as many steps as its text has words. -/
def Obligations.RunBoundedByText : Prop :=
  ∀ (k : Nat) (s t : State), s.text.wf → Host.Core.run Sys2Proof.core k s = .next t → 4 * k ≤ s.text.length

/-! ## Two of D0's own sentences -/

/-- R35: a word that matches a merging pattern is UNDEFINED when neither FEAT_SVE nor FEAT_SME is implemented, and one
that matches a zeroing pattern when neither FEAT_SVE2p2 nor FEAT_SME2p2 is, whatever the other two flags are and before
the access check and every other effect; and where its pair is implemented the gate lets it through: only the access
check can make it UNDEFINED. A latched MOVPRFX is R61's matter, which the spec puts first by its own choice (R76): the
statement is about a word that the latch, empty or conforming, lets through. -/
def Obligations.FeatureGateOfWords : Prop :=
  ∀ (s : State) (w : Word), s.outcome = .running → s.pc ≠ s.cfg.endPc → s.fetch = some w →
    (∀ i, decodeWord w = .ok i → LatchAllows i s) →
    (w &&& 0xFFFFE000 ∈ ([0x6553A000, 0x6555A000, 0x6595A000, 0x65D1A000, 0x6557A000, 0x65D5A000,
        0x65D7A000] : List Word) →
      (s.cfg.featSve = false → s.cfg.featSme = false →
        step s = .fault (.undefinedInstruction w) ∧ advance s = { s with outcome := .fault (.undefinedInstruction w) }) ∧
      (s.cfg.featSve = true ∨ s.cfg.featSme = true → s.cfg.sveAccess ≠ .undefined →
        step s ≠ .fault (.undefinedInstruction w))) ∧
    (w &&& 0xFFFFE000 ∈ ([0x645CE000, 0x645DA000, 0x649DA000, 0x64DCA000, 0x645DE000, 0x64DDA000,
        0x64DDE000] : List Word) →
      (s.cfg.featSve2p2 = false → s.cfg.featSme2p2 = false →
        step s = .fault (.undefinedInstruction w) ∧ advance s = { s with outcome := .fault (.undefinedInstruction w) }) ∧
      (s.cfg.featSve2p2 = true ∨ s.cfg.featSme2p2 = true → s.cfg.sveAccess ≠ .undefined →
        step s ≠ .fault (.undefinedInstruction w)))

/-- R65: the source integer is unsigned. What an active element converts is the sum of the weights `2 ^ k` of the set
bits among the low `s_esize` bits of the source element, the top one of weight `2 ^ (s_esize - 1)` and never a sign; it
is below `2 ^ s_esize`. -/
def Obligations.SourceIntegerIsUnsigned : Prop :=
  ∀ (i : Instr) (s t : State), exec i s = .next t → ∀ e < s.cfg.vl / i.elemSize.bits,
    s.isActive i.pg i.elemSize.bits e →
      (∑ k ∈ Finset.range i.srcSize.bits,
        if (elemGet (s.readZ i.zn) e i.elemSize.bits).getLsbD k then 2 ^ k else 0) < 2 ^ i.srcSize.bits ∧
      t.zElem i.zd i.elemSize.bits e =
        (ucvt (∑ k ∈ Finset.range i.srcSize.bits,
          if (elemGet (s.readZ i.zn) e i.elemSize.bits).getLsbD k then 2 ^ k else 0) i.dstSize s.rounding).bits.toNat
end

