-- ==== Sys2Proof/Laws/Elements.lean ====
section
/-! SUPPORT. Elements of vectors: what a read of an element is, and that a write of one replaces exactly its own
bits. -/

namespace Sys2Proof.Machine

variable {w : Nat}

/-- An element read is the arithmetic one: shift down, keep `size` bits. -/
theorem elemGet_toNat (v : BitVec w) (e size : Nat) :
    (elemGet v e size).toNat = v.toNat / 2 ^ (e * size) % 2 ^ size := by
  simp [elemGet, BitVec.extractLsb'_toNat, Nat.shiftRight_eq_div_pow]

/-- Bit by bit, a write of element `e` changes the bits of element `e` and no other. -/
theorem elemSet_getLsbD (v : BitVec w) (e size : Nat) (x : BitVec size) (j : Nat) :
    (elemSet v e size x).getLsbD j =
      if e * size ≤ j ∧ j < e * size + size then decide (j < w) && x.getLsbD (j - e * size) else v.getLsbD j := by
  simp only [elemSet, BitVec.getLsbD_or, BitVec.getLsbD_and, BitVec.getLsbD_not, BitVec.getLsbD_shiftLeft,
    BitVec.getLsbD_setWidth, BitVec.getLsbD_allOnes]
  by_cases hw : j < w
  · by_cases h1 : e * size ≤ j
    · have h1' : ¬ j < e * size := by omega
      by_cases h2 : j < e * size + size
      · have h3 : j - e * size < size := by omega
        have h4 : j - e * size < w := by omega
        simp [hw, h1, h1', h2, h3, h4]
      · have h3 : ¬ j - e * size < size := by omega
        have h5 : x.getLsbD (j - e * size) = false := BitVec.getLsbD_of_ge _ _ (by omega)
        simp [hw, h1', h2, h3, h5]
    · have h1' : j < e * size := by omega
      simp [hw, h1, h1']
  · have h6 : v.getLsbD j = false := BitVec.getLsbD_of_ge _ _ (by omega)
    simp [hw, h6]

/-- Reading back the element just written, where it lies inside the vector. -/
theorem elemGet_elemSet_same (v : BitVec w) (e size : Nat) (x : BitVec size) (h : e * size + size ≤ w) :
    elemGet (elemSet v e size x) e size = x := by
  ext j hj
  rw [← BitVec.getLsbD_eq_getElem, elemGet, BitVec.getLsbD_extractLsb', elemSet_getLsbD]
  have : e * size + j < w := by omega
  simp [hj, this, BitVec.getLsbD_eq_getElem]

/-- A write of one element leaves every other element as it was. -/
theorem elemGet_elemSet_ne (v : BitVec w) (e e' size : Nat) (x : BitVec size) (h : e' ≠ e) :
    elemGet (elemSet v e size x) e' size = elemGet v e' size := by
  ext j hj
  rw [← BitVec.getLsbD_eq_getElem, ← BitVec.getLsbD_eq_getElem, elemGet, elemGet, BitVec.getLsbD_extractLsb',
    BitVec.getLsbD_extractLsb', elemSet_getLsbD]
  have hout : ¬ (e * size ≤ e' * size + j ∧ e' * size + j < e * size + size) := by
    rintro ⟨h1, h2⟩
    rcases Nat.lt_or_gt_of_ne h with hl | hl
    · have := Nat.mul_le_mul_right size (Nat.succ_le_of_lt hl)
      simp only [Nat.succ_mul] at this
      omega
    · have := Nat.mul_le_mul_right size (Nat.succ_le_of_lt hl)
      simp only [Nat.succ_mul] at this
      omega
  rw [if_neg hout]

/-- An element `k` times as wide holds `k` elements side by side, the least significant first. -/
theorem elemGet_within (v : BitVec w) (e size k j : Nat) (h : j < k) :
    elemGet v (k * e + j) size = (elemGet v e (k * size)).extractLsb' (j * size) size := by
  ext b hb
  have hj := Nat.mul_le_mul_right size (Nat.succ_le_of_lt h)
  rw [Nat.succ_mul] at hj
  simp only [← BitVec.getLsbD_eq_getElem, elemGet, BitVec.getLsbD_extractLsb', hb, decide_true, Bool.true_and]
  rw [decide_eq_true (show j * size + b < k * size by omega), Bool.true_and]
  congr 1
  rw [Nat.add_mul, Nat.mul_comm k e, Nat.mul_assoc]
  omega

/-- An element is active exactly when its predicate bit is set, read by arithmetic. -/
theorem active_eq_testBit {p : Nat} (mask : BitVec p) (e esize : Nat) :
    active mask e esize = mask.toNat.testBit (e * (esize / 8)) := rfl

/-- Some element is active exactly when one of those in range is. -/
theorem anyActive_iff {p : Nat} (mask : BitVec p) (esize elements : Nat) :
    anyActive mask esize elements = true ↔ ∃ e < elements, active mask e esize = true := by
  simp [anyActive]

/-- The vector length is a whole number of elements of every size. -/
theorem elements_mul_bits (s : State) (n : ElemSize) : s.elements n.bits * n.bits = s.cfg.vl := by
  cases n <;> simp only [State.elements, Config.vl, ElemSize.bits] <;> omega

end Sys2Proof.Machine
end

