-- ==== Sys2Proof/Laws/Convert.lean ====
section
/-! SUPPORT. The loop of the Operation (R39): what every element of its result is, and what its flags are. -/

namespace Sys2Proof.Machine

section
variable (c : DecodeConstants) (rmode : RMode) {w p : Nat} (mask : BitVec p) (operand init : BitVec w)

/-- Everything the loop does to an element it has passed, and that it has not touched the others. -/
theorem convertElements_elem (count e : Nat) (hfit : count * c.esize.bits ≤ w) :
    elemGet (convertElements c rmode mask operand init count).result e c.esize.bits =
      if e < count ∧ active mask e c.esize.bits = true then
        (ucvt (sourceOf c operand e) c.dEsize rmode).bits.setWidth c.esize.bits
      else elemGet init e c.esize.bits := by
  induction count with
  | zero => simp [convertElements]
  | succ count ih =>
    rw [Nat.succ_mul] at hfit
    have ih := ih (by omega)
    simp only [convertElements, convertElement]
    by_cases ha : active mask count c.esize.bits = true
    · rw [if_pos ha]
      by_cases he : e = count
      · subst he
        rw [elemGet_elemSet_same _ _ _ _ hfit, if_pos ⟨Nat.lt_succ_self _, ha⟩]
      · rw [elemGet_elemSet_ne _ _ _ _ _ he, ih]
        have : e < count + 1 ↔ e < count := by omega
        simp only [this]
    · rw [if_neg ha, ih]
      by_cases he : e = count
      · subst he; simp [ha]
      · have : e < count + 1 ↔ e < count := by omega
        simp only [this]

/-- The Inexact flag is the OR over the active elements passed. -/
theorem convertElements_inexact (count : Nat) :
    (convertElements c rmode mask operand init count).inexact = true ↔
      ∃ e < count, active mask e c.esize.bits = true ∧ (ucvt (sourceOf c operand e) c.dEsize rmode).inexact = true := by
  induction count with
  | zero => simp [convertElements]
  | succ count ih =>
    simp only [convertElements, convertElement, Nat.lt_succ_iff_lt_or_eq, or_and_right, exists_or, exists_eq_left]
    by_cases ha : active mask count c.esize.bits = true <;> simp [ha, ih]

/-- The Overflow flag is the OR over the active elements passed. -/
theorem convertElements_overflow (count : Nat) :
    (convertElements c rmode mask operand init count).overflow = true ↔
      ∃ e < count, active mask e c.esize.bits = true ∧ (ucvt (sourceOf c operand e) c.dEsize rmode).overflow = true := by
  induction count with
  | zero => simp [convertElements]
  | succ count ih =>
    simp only [convertElements, convertElement, Nat.lt_succ_iff_lt_or_eq, or_and_right, exists_or, exists_eq_left]
    by_cases ha : active mask count c.esize.bits = true <;> simp [ha, ih]

end

/-- The source integer of an element, read by arithmetic on the vector's contents. -/
theorem sourceOf_eq (c : DecodeConstants) {w : Nat} (operand : BitVec w) (e : Nat)
    (h : c.sEsize.bits ≤ c.esize.bits) :
    sourceOf c operand e = operand.toNat / 2 ^ (e * c.esize.bits) % 2 ^ c.sEsize.bits := by
  simp only [sourceOf, BitVec.toNat_setWidth, elemGet_toNat]
  exact Nat.mod_mod_of_dvd _ (Nat.pow_dvd_pow 2 h)

/-! ## The conversion -/

/-- Where the integer fits, the significand is the integer shifted up and nothing is lost. -/
theorem significand_exact (v k frac : Nat) (rmode : RMode) (h : k ≤ frac) :
    significand v k frac rmode = (v * 2 ^ (frac - k), false) := by
  simp [significand, h]

/-- The rounded significand has `F + 1` bits, or is the one value above that the carry is taken out of. -/
theorem significand_bounds (v frac : Nat) (rmode : RMode) (hv : 0 < v) :
    2 ^ frac ≤ (significand v v.log2 frac rmode).1 ∧ (significand v v.log2 frac rmode).1 ≤ 2 ^ (frac + 1) := by
  have hlo : 2 ^ v.log2 ≤ v := Nat.log2_self_le (by omega)
  have hhi : v < 2 ^ (v.log2 + 1) := Nat.lt_log2_self
  by_cases h : v.log2 ≤ frac
  · obtain ⟨d, hd⟩ := Nat.exists_eq_add_of_le h
    rw [significand_exact _ _ _ _ h, show frac - v.log2 = d by omega, hd]
    refine ⟨?_, ?_⟩
    · rw [pow_add]
      exact Nat.mul_le_mul_right _ hlo
    · rw [show v.log2 + d + 1 = v.log2 + 1 + d by omega, pow_add]
      exact Nat.mul_le_mul_right _ hhi.le
  · simp only [significand, if_neg h]
    have hk : v.log2 = frac + (v.log2 - frac) := by omega
    generalize v.log2 - frac = sh at hk ⊢
    have h1 : 2 ^ frac ≤ v / 2 ^ sh := by
      rw [Nat.le_div_iff_mul_le (Nat.two_pow_pos sh), ← pow_add, ← hk]
      exact hlo
    have h2 : v / 2 ^ sh < 2 ^ (frac + 1) := by
      rw [Nat.div_lt_iff_lt_mul (Nat.two_pow_pos sh), ← pow_add, show frac + 1 + sh = v.log2 + 1 by omega]
      exact hhi
    split <;> omega

/-- The bits of an integer's conversion as one number, before the exponent is checked: the exponent field and the
fraction, a carry out of the significand running on into the exponent. -/
def packed (v : Nat) (n : ElemSize) (rmode : RMode) : Nat :=
  (v.log2 + bias n) * 2 ^ fracBits n + ((significand v v.log2 (fracBits n) rmode).1 - 2 ^ fracBits n)

/-- Everything the conversion of a nonzero integer can be: overflow where the packed bits reach infinity's, and the
packed bits where they do not. -/
theorem ucvt_eq (v : Nat) (n : ElemSize) (rmode : RMode) (hv : 0 < v) :
    ucvt v n rmode =
      if (2 ^ expBits n - 1) * 2 ^ fracBits n ≤ packed v n rmode then
        { bits := BitVec.ofNat n.bits (overflowBits n rmode), inexact := true, overflow := true }
      else
        { bits := BitVec.ofNat n.bits (packed v n rmode),
          inexact := (significand v v.log2 (fracBits n) rmode).2, overflow := false } := by
  obtain ⟨h1, h2⟩ := significand_bounds v (fracBits n) rmode hv
  have hE : 2 ^ expBits n - 1 = 2 * bias n + 1 := by cases n <;> rfl
  have hpos := Nat.two_pow_pos (fracBits n)
  rw [pow_succ] at h2
  simp only [ucvt, if_neg (show ¬ v = 0 by omega), packed, hE, beq_iff_eq, pow_succ]
  generalize significand v v.log2 (fracBits n) rmode = sig at *
  generalize 2 ^ fracBits n = P at *
  generalize v.log2 = k at *
  by_cases hc : sig.1 = P * 2
  · have hiff : k + 1 > bias n ↔ (2 * bias n + 1) * P ≤ (k + bias n) * P + (sig.1 - P) := by
      rw [hc, show P * 2 - P = 1 * P by omega, ← Nat.add_mul, Nat.mul_le_mul_right_iff hpos]
      omega
    simp only [hc, if_true] at hiff ⊢
    have heq : (k + 1 + bias n) * P + (P - P) = (k + bias n) * P + (P * 2 - P) := by
      rw [show k + 1 + bias n = k + bias n + 1 by omega, Nat.add_mul (k + bias n) 1 P]
      omega
    simp only [hiff, heq]
  · have hiff : k > bias n ↔ (2 * bias n + 1) * P ≤ (k + bias n) * P + (sig.1 - P) := by
      constructor
      · intro h
        exact (Nat.mul_le_mul_right P (show 2 * bias n + 1 ≤ k + bias n by omega)).trans (Nat.le_add_right _ _)
      · intro h
        by_contra hk
        have := Nat.mul_le_mul_right P (show k + bias n ≤ 2 * bias n by omega)
        rw [Nat.add_mul, Nat.one_mul] at h
        omega
    simp only [hc, if_false, hiff]

/-- Zero converts to +0.0 with no flag. -/
theorem ucvt_zero (n : ElemSize) (rmode : RMode) :
    ucvt 0 n rmode = { bits := 0, inexact := false, overflow := false } := by
  simp [ucvt]

/-! ## The cumulative flags -/

/-- Bit by bit, the cumulative update sets IXC or OFC and leaves every other bit. -/
theorem accumulate_getLsbD (fpsr : BitVec 64) (inexact overflow : Bool) (k : Nat) :
    (accumulate fpsr inexact overflow).getLsbD k = true ↔
      fpsr.getLsbD k = true ∨ (k = 4 ∧ inexact = true) ∨ (k = 2 ∧ overflow = true) := by
  have hbit (j : Nat) (hj : j < 64) : (1#64 <<< j).getLsbD k = decide (k = j) := by
    rw [BitVec.getLsbD_shiftLeft, BitVec.getLsbD_one, Bool.eq_iff_iff]
    simp
    omega
  have h4 : (16#64).getLsbD k = decide (k = 4) := hbit 4 (by decide)
  have h2 : (4#64).getLsbD k = decide (k = 2) := hbit 2 (by decide)
  cases inexact <;> cases overflow <;> simp [accumulate, fpsrIXC, fpsrOFC, h4, h2, or_assoc]

end Sys2Proof.Machine
end

