-- ==== Sys2Proof/Laws/State.lean ====
section
/-! SUPPORT. The field lemmas of the state's updates: one per field per update, so that no proof unfolds a record
update. A register's contents are read through `zNat` and `pNat`, whose types do not depend on the state. -/

namespace Sys2Proof.Machine

variable (s : State) (d r : ZReg) (g : PReg) (v : BitVec s.cfg.vl) (a : Accumulated s.cfg.vl) (w : Word)

/-! ## `writeZ` -/

@[simp] theorem State.writeZ_cfg : (s.writeZ d v).cfg = s.cfg := rfl
@[simp] theorem State.writeZ_fpcr : (s.writeZ d v).fpcr = s.fpcr := rfl
@[simp] theorem State.writeZ_fpsr : (s.writeZ d v).fpsr = s.fpsr := rfl
@[simp] theorem State.writeZ_pc : (s.writeZ d v).pc = s.pc := rfl
@[simp] theorem State.writeZ_latch : (s.writeZ d v).latch = s.latch := rfl
@[simp] theorem State.writeZ_outcome : (s.writeZ d v).outcome = s.outcome := rfl
@[simp] theorem State.writeZ_text : (s.writeZ d v).text = s.text := rfl
@[simp] theorem State.writeZ_pNat : (s.writeZ d v).pNat g = s.pNat g := rfl

theorem State.writeZ_readZ_same : (s.writeZ d v).readZ d = v := by
  simp [State.writeZ, State.readZ, Vector.get_eq_getElem]

theorem State.writeZ_zNat_same : (s.writeZ d v).zNat d = v.toNat :=
  congrArg BitVec.toNat (s.writeZ_readZ_same d v)

theorem State.writeZ_zNat_ne (h : r ≠ d) : (s.writeZ d v).zNat r = s.zNat r := by
  have : d.val ≠ r.val := fun e => h (Fin.ext e.symm)
  simp [State.writeZ, State.zNat, State.readZ, Vector.get_eq_getElem, this]

/-! ## `retire` -/

@[simp] theorem State.retire_cfg : (s.retire d a).cfg = s.cfg := rfl
@[simp] theorem State.retire_fpcr : (s.retire d a).fpcr = s.fpcr := rfl
@[simp] theorem State.retire_fpsr : (s.retire d a).fpsr = accumulate s.fpsr a.inexact a.overflow := rfl
@[simp] theorem State.retire_pc : (s.retire d a).pc = s.pc + 4 := rfl
@[simp] theorem State.retire_latch : (s.retire d a).latch = none := rfl
@[simp] theorem State.retire_outcome : (s.retire d a).outcome = s.outcome := rfl
@[simp] theorem State.retire_text : (s.retire d a).text = s.text := rfl
@[simp] theorem State.retire_pNat : (s.retire d a).pNat g = s.pNat g := rfl

theorem State.retire_zNat_same : (s.retire d a).zNat d = a.result.toNat :=
  s.writeZ_zNat_same d a.result

theorem State.retire_zNat_ne (h : r ≠ d) : (s.retire d a).zNat r = s.zNat r :=
  s.writeZ_zNat_ne d r a.result h

/-! ## `loadAtPc` -/

@[simp] theorem State.loadAtPc_fpcr : (s.loadAtPc w).fpcr = s.fpcr := rfl
@[simp] theorem State.loadAtPc_fpsr : (s.loadAtPc w).fpsr = s.fpsr := rfl
@[simp] theorem State.loadAtPc_pc : (s.loadAtPc w).pc = s.pc := rfl
@[simp] theorem State.loadAtPc_latch : (s.loadAtPc w).latch = s.latch := rfl
@[simp] theorem State.loadAtPc_outcome : (s.loadAtPc w).outcome = .running := rfl
@[simp] theorem State.loadAtPc_text : (s.loadAtPc w).text = s.text.putWord s.pc w := rfl
@[simp] theorem State.loadAtPc_zNat : (s.loadAtPc w).zNat r = s.zNat r := rfl
@[simp] theorem State.loadAtPc_pNat : (s.loadAtPc w).pNat g = s.pNat g := rfl

/-- The load leaves a place to run: the run is not over at the loaded word. -/
theorem State.loadAtPc_endPc_ne : (s.loadAtPc w).pc ≠ (s.loadAtPc w).cfg.endPc := by
  show s.pc ≠ if s.cfg.endPc = s.pc then s.pc + 4 else s.cfg.endPc
  split
  · bv_omega
  · exact fun h => by simp_all

/-! ## `settle` -/

@[simp] theorem State.settle_next (t : State) : s.settle (.next t) = t := rfl
@[simp] theorem State.settle_fault (f : Fault) : s.settle (.fault f) = { s with outcome := .fault f } := rfl
@[simp] theorem State.settle_runOver : s.settle (.refused .runOver) = s := rfl
@[simp] theorem State.settle_stuck : s.settle (.refused .stuck) = s := rfl

theorem State.settle_refused (q : Refusal) (h1 : q ≠ .runOver) (h2 : q ≠ .stuck) :
    s.settle (.refused q) = { s with outcome := .refused q } := by
  cases q <;> first | rfl | contradiction

/-! ## Reset -/

@[simp] theorem State.reset_zNat : State.reset.zNat r = 0 := by
  simp [State.reset, State.zNat, State.readZ, Vector.get_eq_getElem]

@[simp] theorem State.reset_pNat : State.reset.pNat g = 0 := by
  simp [State.reset, State.pNat, State.readP, Vector.get_eq_getElem]

end Sys2Proof.Machine
end

