-- ==== Sys2Proof/Laws/Memory.lean ====
section
/-! SUPPORT. The program text: a read after a write, and that every operation keeps the canonical form. -/

namespace Sys2Proof.Machine

/-! ## Bytes -/

@[simp] theorem Memory.read_write_same (m : Memory) (a : Nat) (b : Byte) : (m.write a b).read a = some b := by
  induction m with
  | nil => simp [Memory.write, Memory.read]
  | cons c m ih =>
    simp only [Memory.write]
    split
    · simp [Memory.read]
    · split
      · simp [Memory.read]
      · next h => simp [Memory.read, Ne.symm h, ih]

theorem Memory.read_write_ne (m : Memory) (a a' : Nat) (b : Byte) (h : a' ≠ a) :
    (m.write a b).read a' = m.read a' := by
  induction m with
  | nil => simp [Memory.write, Memory.read, Ne.symm h]
  | cons c m ih =>
    simp only [Memory.write]
    split
    · simp [Memory.read, Ne.symm h]
    · split
      · next e => subst e; simp [Memory.read, Ne.symm h]
      · simp [Memory.read, ih]

theorem Memory.mem_write (m : Memory) (a : Nat) (b : Byte) (c : Host.Cell) (h : c ∈ m.write a b) :
    c = (a, b) ∨ c ∈ m := by
  induction m with
  | nil => simpa [Memory.write] using h
  | cons d m ih =>
    simp only [Memory.write] at h
    split at h
    · simpa using h
    · split at h
      · rcases List.mem_cons.1 h with h | h
        · exact .inl h
        · exact .inr (List.mem_cons_of_mem _ h)
      · rcases List.mem_cons.1 h with h | h
        · exact .inr (h ▸ List.mem_cons_self)
        · exact (ih h).imp id (List.mem_cons_of_mem _)

/-- A write keeps the addresses strictly rising and inside the address space. -/
theorem Memory.write_sorted (m : Memory) (a : Nat) (b : Byte) (ha : a < 2 ^ 64) (hm : m.sorted) :
    (m.write a b).sorted := by
  obtain ⟨hp, hl⟩ := hm
  refine ⟨?_, fun c hc => (Memory.mem_write m a b c hc).elim (fun e => e ▸ ha) (hl c)⟩
  clear hl
  induction m with
  | nil => simp [Memory.write]
  | cons d m ih =>
    obtain ⟨hd, hp⟩ := List.pairwise_cons.1 hp
    simp only [Memory.write]
    split
    · next h =>
      refine List.pairwise_cons.2 ⟨fun c hc => ?_, List.pairwise_cons.2 ⟨hd, hp⟩⟩
      rcases List.mem_cons.1 hc with rfl | hc
      · exact h
      · exact h.trans (hd c hc)
    · split
      · next h => exact List.pairwise_cons.2 ⟨fun c hc => h ▸ hd c hc, hp⟩
      · next h1 h2 =>
        refine List.pairwise_cons.2 ⟨fun c hc => ?_, ih hp⟩
        rcases Memory.mem_write m a b c hc with rfl | hc
        · show d.1 < a
          omega
        · exact hd c hc

/-! ## Words -/

/-- The byte that a loaded word leaves at each address. -/
theorem Memory.read_putWord (m : Memory) (a : Addr) (w : Word) (x : Nat) (ha : a.toNat % 4 = 0) :
    (m.putWord a w).read x =
      if a.toNat ≤ x ∧ x < a.toNat + 4 then some (byteOfWord w (x - a.toNat)) else m.read x := by
  simp only [Memory.putWord, if_pos ha]
  by_cases h : a.toNat ≤ x ∧ x < a.toNat + 4
  · rw [if_pos h]
    obtain ⟨k, rfl⟩ : ∃ k, x = a.toNat + k := ⟨x - a.toNat, by omega⟩
    have hk : k < 4 := by omega
    rw [Nat.add_sub_cancel_left]
    match k, hk with
    | 0, _ =>
      rw [Memory.read_write_ne _ _ _ _ (by omega), Memory.read_write_ne _ _ _ _ (by omega),
        Memory.read_write_ne _ _ _ _ (by omega), Nat.add_zero, Memory.read_write_same]
    | 1, _ =>
      rw [Memory.read_write_ne _ _ _ _ (by omega), Memory.read_write_ne _ _ _ _ (by omega), Memory.read_write_same]
    | 2, _ => rw [Memory.read_write_ne _ _ _ _ (by omega), Memory.read_write_same]
    | 3, _ => rw [Memory.read_write_same]
  · rw [if_neg h, Memory.read_write_ne _ _ _ _ (by omega), Memory.read_write_ne _ _ _ _ (by omega),
      Memory.read_write_ne _ _ _ _ (by omega), Memory.read_write_ne _ _ _ _ (by omega)]

theorem Memory.mem_putWord (m : Memory) (a : Addr) (w : Word) (c : Host.Cell) (h : c ∈ m.putWord a w) :
    (a.toNat % 4 = 0 ∧ a.toNat ≤ c.1 ∧ c.1 < a.toNat + 4) ∨ c ∈ m := by
  unfold Memory.putWord at h
  split at h
  · next ha =>
    rcases Memory.mem_write _ _ _ _ h with rfl | h
    · exact .inl ⟨ha, by simp, by simp⟩
    rcases Memory.mem_write _ _ _ _ h with rfl | h
    · exact .inl ⟨ha, by simp, by simp⟩
    rcases Memory.mem_write _ _ _ _ h with rfl | h
    · exact .inl ⟨ha, by simp, by simp⟩
    rcases Memory.mem_write _ _ _ _ h with rfl | h
    · exact .inl ⟨ha, by simp, by simp⟩
    exact .inr h
  · exact .inr h

/-- Loading a word keeps the canonical form. -/
theorem Memory.putWord_wf (m : Memory) (a : Addr) (w : Word) (hm : m.wf) : (m.putWord a w).wf := by
  by_cases ha : a.toNat % 4 = 0
  · have hlt := a.isLt
    refine ⟨?_, fun c hc k hk => ?_⟩
    · simp only [Memory.putWord, if_pos ha]
      exact Memory.write_sorted _ _ _ (by omega) (Memory.write_sorted _ _ _ (by omega)
        (Memory.write_sorted _ _ _ (by omega) (Memory.write_sorted _ _ _ (by omega) hm.1)))
    · rw [Memory.read_putWord m a w _ ha]
      split
      · rfl
      · next hout =>
        rcases Memory.mem_putWord m a w c hc with ⟨-, h1, h2⟩ | hc
        · exact absurd ⟨by omega, by omega⟩ hout
        · exact hm.2 c hc k hk
  · simpa [Memory.putWord, ha] using hm

/-- The text after reset is canonical. -/
theorem State.reset_text_wf : State.reset.text.wf := by decide

/-- Loading a program's word keeps the text canonical. -/
theorem State.loadAtPc_text_wf (s : State) (w : Word) (h : s.text.wf) : (s.loadAtPc w).text.wf :=
  Memory.putWord_wf s.text s.pc w h

end Sys2Proof.Machine
end

