-- ==== Sys2Proof/Laws/Ops.lean ====
section
/-! SUPPORT. One lemma for each shared operation that says everything it can do, and every meaning as the shared
operation with its class's constants. -/

namespace Sys2Proof.Machine

/-! ## The constants of an instruction -/

/-- The Decode constants of an instruction's class, as its syntax names them (R33). -/
def constantsOf (i : Instr) : DecodeConstants := ⟨i.elemSize, i.srcSize, i.dstSize, i.merging⟩

/-- Every meaning is the shared operation with the class's constants. -/
theorem exec_eq_ucvtf (i : Instr) (s : State) :
    exec i s = ucvtf (constantsOf i) (encode i) i.zd i.pg i.zn s := by
  cases i <;> rfl

theorem srcSize_le_elemSize (i : Instr) : i.srcSize.bits ≤ i.elemSize.bits := by
  cases i <;> simp [Instr.srcSize, Instr.elemSize, ElemSize.bits]

theorem dstSize_le_elemSize (i : Instr) : i.dstSize.bits ≤ i.elemSize.bits := by
  cases i <;> simp [Instr.dstSize, Instr.elemSize, ElemSize.bits]

/-! ## The tests -/

/-- The latch test is the condition of R61 (a) and (b). -/
theorem latchAdmits_iff (i : Instr) (s : State) :
    latchAdmits (constantsOf i) i.zd i.pg i.zn s.latch = true ↔ LatchAllows i s := by
  unfold LatchAllows
  cases s.latch with
  | none => simp [latchAdmits]
  | some m =>
    rcases m with ⟨_ | pr, zd, zn⟩
    · simp [latchAdmits, prefixConforms, constantsOf]
    · simp only [latchAdmits, prefixConforms, constantsOf, Bool.and_eq_true, beq_iff_eq, bne_iff_ne, ne_eq,
        Option.some.injEq, forall_eq']
      tauto

/-- The feature test is the condition of R35. -/
theorem implemented_iff (i : Instr) (s : State) :
    implemented s.cfg i.merging = true ↔ FeaturePresent i s := by
  cases h : i.merging <;> simp [implemented, FeaturePresent, h]

/-- The trap-enable bits read as they are stored where traps are supported, and as zero elsewhere (R17). -/
theorem readFpcr_trapEnables (s : State) :
    (s.readFpcr.getLsbD fpcrIXE = true ↔ InexactTrapEnabled s) ∧
      (s.readFpcr.getLsbD fpcrOFE = true ↔ OverflowTrapEnabled s) := by
  have h12 : fpcrTrapEnables.getLsbD 12 = true := by decide
  have h10 : fpcrTrapEnables.getLsbD 10 = true := by decide
  cases h : s.cfg.fpTraps <;>
    simp [State.readFpcr, h, fpcrIXE, fpcrOFE, InexactTrapEnabled, OverflowTrapEnabled, h12, h10]

/-- The rounding mode does not depend on the trap enables' reading (R66). -/
theorem rounding_eq (s : State) : s.rounding = rmodeOf (fpcrRMode s.fpcr) := by
  unfold State.rounding State.readFpcr
  cases s.cfg.fpTraps with
  | supported => rfl
  | notSupported =>
    have h : fpcrRMode (s.fpcr &&& ~~~fpcrTrapEnables) = fpcrRMode s.fpcr := by
      simp only [fpcrRMode, BitVec.extractLsb'_and]
      have : BitVec.extractLsb' 22 2 (~~~fpcrTrapEnables) = BitVec.allOnes 2 := by decide
      rw [this, BitVec.and_allOnes]
    simp only [h]

/-! ## The Operation -/

/-- An element in range of an active predicate makes the source register be read. -/
theorem convertVector_eq (c : DecodeConstants) (zd : ZReg) (pg : PReg) (zn : ZReg) (s : State) :
    (convertVector c zd pg zn s) =
      convertElements c s.rounding (s.readP pg)
        (if anyActive (s.readP pg) c.esize.bits (s.elements c.esize.bits) then s.readZ zn else 0)
        (if c.merging then s.readZ zd else 0) (s.elements c.esize.bits) := rfl

/-- Where an element is active the operand is the source register (R41). -/
theorem operand_of_active {s : State} {pg : PReg} {zn : ZReg} {esize e : Nat} (he : e < s.elements esize)
    (ha : active (s.readP pg) e esize = true) :
    (if anyActive (s.readP pg) esize (s.elements esize) then s.readZ zn else 0) = s.readZ zn :=
  if_pos ((anyActive_iff _ _ _).2 ⟨e, he, ha⟩)

/-- The source integer that the Operation reads from an active element is the statement's own. -/
theorem sourceOf_operand {i : Instr} {s : State} {e : Nat} (he : e < s.elements i.elemSize.bits)
    (ha : active (s.readP i.pg) e i.elemSize.bits = true) :
    sourceOf (constantsOf i)
      (if anyActive (s.readP i.pg) i.elemSize.bits (s.elements i.elemSize.bits) then s.readZ i.zn else 0) e =
        s.sourceInt i e := by
  rw [operand_of_active he ha, sourceOf_eq _ _ _ (srcSize_le_elemSize i)]
  rfl

/-- Every element of the vector the Operation builds (R40, R42). -/
theorem convertVector_elem (i : Instr) (s : State) (e : Nat) (he : e < s.cfg.vl / i.elemSize.bits) :
    (convertVector (constantsOf i) i.zd i.pg i.zn s).result.toNat / 2 ^ (e * i.elemSize.bits) %
        2 ^ i.elemSize.bits =
      if (s.pNat i.pg).testBit (e * (i.elemSize.bits / 8)) then (s.conversion i e).bits.toNat
      else if i.merging then s.zElem i.zd i.elemSize.bits e else 0 := by
  have hfit : s.elements i.elemSize.bits * i.elemSize.bits ≤ s.cfg.vl := (elements_mul_bits s _).le
  have key := convertElements_elem (constantsOf i) s.rounding (s.readP i.pg)
    (if anyActive (s.readP i.pg) i.elemSize.bits (s.elements i.elemSize.bits) then s.readZ i.zn else 0)
    (if i.merging then s.readZ i.zd else 0) (s.elements i.elemSize.bits) e hfit
  have key := congrArg BitVec.toNat key
  rw [elemGet_toNat] at key
  refine key.trans ?_
  rw [active_eq_testBit]
  by_cases ha : (s.pNat i.pg).testBit (e * (i.elemSize.bits / 8)) = true
  · have ha' : active (s.readP i.pg) e i.elemSize.bits = true := ha
    rw [if_pos ⟨he, ha⟩, if_pos ha, sourceOf_operand he ha', BitVec.toNat_setWidth]
    refine Nat.mod_eq_of_lt (lt_of_lt_of_le (BitVec.isLt _) ?_)
    exact Nat.pow_le_pow_right (by decide) (dstSize_le_elemSize i)
  · rw [if_neg (fun h => ha h.2), if_neg ha, elemGet_toNat]
    cases i.merging with
    | true => rfl
    | false => simp

/-- The Inexact flag the Operation computes (R69). -/
theorem convertVector_inexact (i : Instr) (s : State) :
    (convertVector (constantsOf i) i.zd i.pg i.zn s).inexact = true ↔ s.someInexact i := by
  rw [convertVector_eq, convertElements_inexact]
  constructor
  · rintro ⟨e, he, ha, hx⟩
    exact ⟨e, he, ha, by rw [State.conversion, ← sourceOf_operand he ha]; exact hx⟩
  · rintro ⟨e, he, ha, hx⟩
    exact ⟨e, he, ha, by rw [State.conversion, ← sourceOf_operand he ha] at hx; exact hx⟩

/-- The Overflow flag the Operation computes (R69). -/
theorem convertVector_overflow (i : Instr) (s : State) :
    (convertVector (constantsOf i) i.zd i.pg i.zn s).overflow = true ↔ s.someOverflow i := by
  rw [convertVector_eq, convertElements_overflow]
  constructor
  · rintro ⟨e, he, ha, hx⟩
    exact ⟨e, he, ha, by rw [State.conversion, ← sourceOf_operand he ha]; exact hx⟩
  · rintro ⟨e, he, ha, hx⟩
    exact ⟨e, he, ha, by rw [State.conversion, ← sourceOf_operand he ha] at hx; exact hx⟩

/-- The trap test is the condition of R70. -/
theorem trapsFP_iff (i : Instr) (s : State) :
    s.trapsFP (convertVector (constantsOf i) i.zd i.pg i.zn s).inexact
        (convertVector (constantsOf i) i.zd i.pg i.zn s).overflow = true ↔
      (InexactTrapEnabled s ∧ s.someInexact i) ∨ (OverflowTrapEnabled s ∧ s.someOverflow i) := by
  rw [State.trapsFP, Bool.or_eq_true, Bool.and_eq_true, Bool.and_eq_true, convertVector_inexact,
    convertVector_overflow, (readFpcr_trapEnables s).1, (readFpcr_trapEnables s).2]

/-- Everything UCVTF (predicated) can answer, case by case in the order of R76. -/
theorem ucvtf_cases (c : DecodeConstants) (w : Word) (zd : ZReg) (pg : PReg) (zn : ZReg) (s : State) :
    let a := convertVector c zd pg zn s
    (latchAdmits c zd pg zn s.latch = false ∧ ucvtf c w zd pg zn s = .refused .movprfxUnpredictable) ∨
    (latchAdmits c zd pg zn s.latch = true ∧
      ((implemented s.cfg c.merging = false ∧ ucvtf c w zd pg zn s = .fault (.undefinedInstruction w)) ∨
       (implemented s.cfg c.merging = true ∧
         ((s.cfg.sveAccess = .undefined ∧ ucvtf c w zd pg zn s = .fault (.undefinedInstruction w)) ∨
          (∃ info, s.cfg.sveAccess = .trapped info ∧ ucvtf c w zd pg zn s = .fault (.sveAccess info)) ∨
          (s.cfg.sveAccess = .allowed ∧
            ((s.trapsFP a.inexact a.overflow = true ∧ ucvtf c w zd pg zn s = .refused .trappedFP) ∨
             (s.trapsFP a.inexact a.overflow = false ∧
               ((s.pc.toNat + 4 < 2 ^ 64 ∧ ucvtf c w zd pg zn s = .next (s.retire zd a)) ∨
                (¬ s.pc.toNat + 4 < 2 ^ 64 ∧ ucvtf c w zd pg zn s = .refused .pcWrap))))))))) := by
  intro a
  unfold ucvtf
  cases latchAdmits c zd pg zn s.latch with
  | false => exact .inl ⟨rfl, rfl⟩
  | true =>
    refine .inr ⟨rfl, ?_⟩
    cases implemented s.cfg c.merging with
    | false => exact .inl ⟨rfl, rfl⟩
    | true =>
      refine .inr ⟨rfl, ?_⟩
      cases s.cfg.sveAccess with
      | undefined => exact .inl ⟨rfl, rfl⟩
      | trapped info => exact .inr (.inl ⟨info, rfl, rfl⟩)
      | allowed =>
        refine .inr (.inr ⟨rfl, ?_⟩)
        simp only [if_true]
        cases ht : s.trapsFP a.inexact a.overflow with
        | true => exact .inl ⟨rfl, rfl⟩
        | false =>
          refine .inr ⟨rfl, ?_⟩
          by_cases hp : s.pc.toNat + 4 < 2 ^ 64
          · exact .inl ⟨hp, if_pos hp⟩
          · exact .inr ⟨hp, if_neg hp⟩

/-- When UCVTF (predicated) completes, and with what state. -/
theorem ucvtf_next (c : DecodeConstants) (w : Word) (zd : ZReg) (pg : PReg) (zn : ZReg) (s t : State) :
    ucvtf c w zd pg zn s = .next t ↔
      latchAdmits c zd pg zn s.latch = true ∧ implemented s.cfg c.merging = true ∧ s.cfg.sveAccess = .allowed ∧
      s.trapsFP (convertVector c zd pg zn s).inexact (convertVector c zd pg zn s).overflow = false ∧
      s.pc.toNat + 4 < 2 ^ 64 ∧ t = s.retire zd (convertVector c zd pg zn s) := by
  have h := ucvtf_cases c w zd pg zn s
  simp only at h
  rcases h with ⟨h1, h⟩ | ⟨h1, ⟨h2, h⟩ | ⟨h2, ⟨h3, h⟩ | ⟨_, h3, h⟩ | ⟨h3, ⟨h4, h⟩ | ⟨h4, ⟨h5, h⟩ | ⟨h5, h⟩⟩⟩⟩⟩ 
  · simp [h, h1]
  · simp [h, h2]
  · simp [h, h3]
  · simp [h, h3]
  · simp [h, h4]
  · simp only [h, h1, h2, h3, h4, h5, true_and, Host.Outcome.next.injEq]
    exact eq_comm
  · simp only [h, h5, false_and, and_false, reduceCtorEq]

/-- When an instruction completes, and with what state. -/
theorem exec_next (i : Instr) (s t : State) :
    exec i s = .next t ↔
      MayExecute i s ∧ ¬ (InexactTrapEnabled s ∧ s.someInexact i) ∧ ¬ (OverflowTrapEnabled s ∧ s.someOverflow i) ∧
      t = s.retire i.zd (convertVector (constantsOf i) i.zd i.pg i.zn s) := by
  rw [exec_eq_ucvtf, ucvtf_next, latchAdmits_iff, show (constantsOf i).merging = i.merging from rfl,
    implemented_iff, ← Bool.not_eq_true, trapsFP_iff]
  unfold MayExecute
  tauto

end Sys2Proof.Machine
end

