-- ==== Sys2Proof/Laws/PerInstr.lean ====
section
/-! SUPPORT. The family `EncodeMatch`: the fixed bits of every instruction's word, built from the formats of
R31 and R32, are the `match` value that R33 tabulates for its class. -/

namespace Sys2Proof.Laws.EncodeMatch

/-- The `match` value of an instruction's class (R33). -/
def matchValue : Instr → Word
  | .ucvtfHMergeH .. => 0x6553A000
  | .ucvtfHZeroH ..  => 0x645CE000
  | .ucvtfHMergeS .. => 0x6555A000
  | .ucvtfHZeroS ..  => 0x645DA000
  | .ucvtfSMergeS .. => 0x6595A000
  | .ucvtfSZeroS ..  => 0x649DA000
  | .ucvtfDMergeS .. => 0x65D1A000
  | .ucvtfDZeroS ..  => 0x64DCA000
  | .ucvtfHMergeD .. => 0x6557A000
  | .ucvtfHZeroD ..  => 0x645DE000
  | .ucvtfSMergeD .. => 0x65D5A000
  | .ucvtfSZeroD ..  => 0x64DDA000
  | .ucvtfDMergeD .. => 0x65D7A000
  | .ucvtfDZeroD ..  => 0x64DDE000

/-- The word's fixed bits are its class's `match` value. -/
def Statement (i : Instr) : Prop := encode i &&& fixedMask = matchValue i

/-- Masking a word of 19 fixed bits and 13 operand bits keeps the fixed bits. -/
theorem mask_append (x : BitVec 19) (y : BitVec 13) : (x ++ y : BitVec 32) &&& fixedMask = x ++ (0 : BitVec 13) := by
  have h : fixedMask = (BitVec.allOnes 19 ++ (0 : BitVec 13) : BitVec 32) := by decide
  rw [h, BitVec.and_append, BitVec.and_allOnes]
  simp

/-- The format's fixed bits, operand bits zero, are the tabulated value. -/
theorem fixedBits_append_zero (i : Instr) : (i.fixedBits ++ (0 : BitVec 13) : Word) = matchValue i := by
  cases i <;> simp only [Instr.fixedBits, matchValue] <;> decide

theorem of_fixedBits (i : Instr) : Statement i := (mask_append _ _).trans (fixedBits_append_zero i)

variable (zd : ZReg) (pg : PReg) (zn : ZReg)

theorem ucvtfHMergeH : Statement (.ucvtfHMergeH zd pg zn) := of_fixedBits _
theorem ucvtfHZeroH : Statement (.ucvtfHZeroH zd pg zn) := of_fixedBits _
theorem ucvtfHMergeS : Statement (.ucvtfHMergeS zd pg zn) := of_fixedBits _
theorem ucvtfHZeroS : Statement (.ucvtfHZeroS zd pg zn) := of_fixedBits _
theorem ucvtfSMergeS : Statement (.ucvtfSMergeS zd pg zn) := of_fixedBits _
theorem ucvtfSZeroS : Statement (.ucvtfSZeroS zd pg zn) := of_fixedBits _
theorem ucvtfDMergeS : Statement (.ucvtfDMergeS zd pg zn) := of_fixedBits _
theorem ucvtfDZeroS : Statement (.ucvtfDZeroS zd pg zn) := of_fixedBits _
theorem ucvtfHMergeD : Statement (.ucvtfHMergeD zd pg zn) := of_fixedBits _
theorem ucvtfHZeroD : Statement (.ucvtfHZeroD zd pg zn) := of_fixedBits _
theorem ucvtfSMergeD : Statement (.ucvtfSMergeD zd pg zn) := of_fixedBits _
theorem ucvtfSZeroD : Statement (.ucvtfSZeroD zd pg zn) := of_fixedBits _
theorem ucvtfDMergeD : Statement (.ucvtfDMergeD zd pg zn) := of_fixedBits _
theorem ucvtfDZeroD : Statement (.ucvtfDZeroD zd pg zn) := of_fixedBits _

end Sys2Proof.Laws.EncodeMatch
end

