-- ==== Sys2Proof/Laws/Step.lean ====
section
/-! SUPPORT. Everything a step can do: when it answers a next state, and that every completed instruction leaves
the run parameters, the predicates, FPCR and the text alone; and the host's `run` of this machine, unfolded by one
step from either end. -/

namespace Sys2Proof.Machine

/-- A step answers a next state only by running the instruction that the word at `pc` decodes to. -/
theorem step_next (s t : State) (h : step s = .next t) :
    ∃ w i, s.outcome = .running ∧ s.pc ≠ s.cfg.endPc ∧ s.fetch = some w ∧ decodeWord w = .ok i ∧
      exec i s = .next t := by
  unfold step at h
  split at h
  · cases h
  · cases h
  · next hr =>
    split at h
    · cases h
    · next hp =>
      split at h
      · cases h
      · next w hw =>
        split at h
        · cases h
        · next i hi => exact ⟨w, i, hr, hp, hw, hi, h⟩

/-- What a completed instruction leaves, field by field. -/
theorem exec_next_fields (i : Instr) (s t : State) (h : exec i s = .next t) :
    t.cfg = s.cfg ∧ t.fpcr = s.fpcr ∧ t.text = s.text ∧ t.outcome = s.outcome ∧ t.latch = none ∧
      t.pc = s.pc + 4 ∧ s.pc.toNat + 4 < 2 ^ 64 ∧ (∀ g, t.pNat g = s.pNat g) ∧
      ∀ r, r ≠ i.zd → t.zNat r = s.zNat r := by
  obtain ⟨hm, -, -, rfl⟩ := (exec_next i s t).1 h
  exact ⟨rfl, rfl, rfl, rfl, rfl, rfl, hm.2.2.2, fun _ => rfl, fun r hr => State.retire_zNat_ne s i.zd r _ hr⟩

/-! ## Runs -/

/-- No step: the state itself. -/
theorem run_zero_next (s t : State) : Host.Core.run Sys2Proof.core 0 s = .next t ↔ s = t :=
  ⟨fun h => Host.Outcome.next.inj h, fun h => h ▸ rfl⟩

/-- The equation of the host's `run`. -/
theorem run_succ (M : Host.Core) (k : Nat) (s : M.State) :
    M.run (k + 1) s =
      match M.step s with
      | .next u => M.run k u
      | .fault r => .fault r
      | .refused r => .refused r := rfl

/-- A run of `k + 1` steps is a step, then a run of `k`. -/
theorem run_succ_next (k : Nat) (s t : State) :
    Host.Core.run Sys2Proof.core (k + 1) s = .next t ↔
      ∃ u, step s = .next u ∧ Host.Core.run Sys2Proof.core k u = .next t := by
  have h := run_succ Sys2Proof.core k s
  cases hs : step s with
  | next u =>
    rw [show Sys2Proof.core.step s = .next u from hs] at h
    exact ⟨fun h' => ⟨u, rfl, h.symm.trans h'⟩, fun ⟨v, hv, ht⟩ => h.trans (Host.Outcome.next.inj hv ▸ ht)⟩
  | fault r =>
    rw [show Sys2Proof.core.step s = .fault r from hs] at h
    exact ⟨fun h' => (nomatch h.symm.trans h'), fun ⟨_, hv, _⟩ => (nomatch hv)⟩
  | refused r =>
    rw [show Sys2Proof.core.step s = .refused r from hs] at h
    exact ⟨fun h' => (nomatch h.symm.trans h'), fun ⟨_, hv, _⟩ => (nomatch hv)⟩

/-- A run of `k + 1` steps is a run of `k`, then a step, whatever that step answers. -/
theorem run_snoc (k : Nat) (s u : State) (h : Host.Core.run Sys2Proof.core k s = .next u) :
    Host.Core.run Sys2Proof.core (k + 1) s = step u := by
  induction k generalizing s with
  | zero =>
    obtain rfl := (run_zero_next s u).1 h
    have h' := run_succ Sys2Proof.core 0 s
    cases hs : step s with
    | next v => rw [show Sys2Proof.core.step s = .next v from hs] at h'; exact h'
    | fault r => rw [show Sys2Proof.core.step s = .fault r from hs] at h'; exact h'
    | refused r => rw [show Sys2Proof.core.step s = .refused r from hs] at h'; exact h'
  | succ k ih =>
    obtain ⟨v, hs, hv⟩ := (run_succ_next k s u).1 h
    have h' := run_succ Sys2Proof.core (k + 1) s
    rw [show Sys2Proof.core.step s = .next v from hs] at h'
    exact h'.trans (ih v hv)

end Sys2Proof.Machine
end

