-- ==== Sys2Proof/Tests/Slice0.lean ====
section
/-! SUPPORT. Our own tests. Every expected value is copied from spec/95_test_vectors.md (the section is named at each
group), none from the model. Then, for each statement of Certificates/Slice0/Obligations.lean that has hypotheses, a
concrete state and operands that meet all of them together. -/

namespace Sys2Proof.Tests

open Sys2Proof Sys2Proof.Machine

/-! ## Helpers -/

/-- A launch state with these predicate and vector registers, the others zero, and the word at the `pc`. -/
def start (c : Config) (ps zs : List (Nat × Nat)) (w : Nat) : State :=
  ({ cfg := c
     z := zs.foldl (fun z r => z.set! r.1 (BitVec.ofNat _ r.2)) (Vector.replicate 32 0)
     p := ps.foldl (fun p r => p.set! r.1 (BitVec.ofNat _ r.2)) (Vector.replicate 16 0)
     fpcr := 0
     fpsr := 0
     pc := c.entry
     latch := none
     outcome := .running
     text := [] } : State).withFetchWord 32 w

/-- The same at the default configuration (`VL = 128`, everything implemented and allowed). -/
def s0 (ps zs : List (Nat × Nat)) (w : Nat) : State := start Config.default ps zs w

/-- The step completes with this `Z[d]` and this FPSR, four bytes on. -/
def gives (s : State) (d : ZReg) (z fpsr : Nat) : Bool :=
  match step s with
  | .next t => t.zNat d == z && t.fpsr.toNat == fpsr && t.pc == s.pc + 4
  | _ => false

/-- The answer is a next state. -/
def completes : Answer → Bool
  | .next _ => true
  | _ => false

/-- A check that an answer is a next state gives the state. -/
theorem next_of_completes {o : Answer} (h : completes o = true) : ∃ t, o = .next t := by
  cases o with
  | next t => exact ⟨t, rfl⟩
  | fault r => cases h
  | refused r => cases h

/-- An empty latch lets every instruction through. -/
theorem latch_none (i : Instr) (s : State) (h : s.latch = none) : LatchAllows i s := by
  intro m hm
  rw [h] at hm
  cases hm

/-! ## WellFormed: each check refuses an ill-formed term -/

theorem test_P7_governs : (Instr.ucvtfHMergeH 0 7 0).wellFormed = true := by decide

theorem test_P8_refused : (Instr.ucvtfHMergeH 0 8 0).wellFormed = false := by decide

theorem test_P15_refused : (Instr.ucvtfDZeroD 31 15 31).wellFormed = false := by decide

theorem test_sve2p2_without_sve_refused :
    Config.featuresConsistent { Config.default with featSve := false } = false := by decide

theorem test_sme2p2_without_sme_refused :
    Config.featuresConsistent { Config.default with featSme := false } = false := by decide

/-! ## Decoding (L2.6): the words bit by bit, their bytes, and words that are no UCVTF (predicated) -/

/-- `ucvtf z0.h, p0/z, z0.h`, bits 31:24, 23:13, 12:10 (`Pg`), 9:5 (`Zn`), 4:0 (`Zd`). -/
theorem test_decode_ucvtfHZeroH :
    decodeWord (0b01100100#8 ++ 0b01011100111#11 ++ 0b000#3 ++ 0b00000#5 ++ 0b00000#5) = .ok (.ucvtfHZeroH 0 0 0) ∧
      decode [0x00, 0xE0, 0x5C, 0x64] = .ok (.ucvtfHZeroH 0 0 0) := by decide

/-- `ucvtf z3.h, p2/m, z3.h`, bits 31:24, 23:13, 12:10 (`Pg`), 9:5 (`Zn`), 4:0 (`Zd`). -/
theorem test_decode_ucvtfHMergeH :
    decodeWord (0b01100101#8 ++ 0b01010011101#11 ++ 0b010#3 ++ 0b00011#5 ++ 0b00011#5) = .ok (.ucvtfHMergeH 3 2 3) ∧
      decode [0x63, 0xA8, 0x53, 0x65] = .ok (.ucvtfHMergeH 3 2 3) := by decide

/-- `ucvtf z7.h, p1/m, z8.s`, bits 31:24, 23:13, 12:10 (`Pg`), 9:5 (`Zn`), 4:0 (`Zd`). -/
theorem test_decode_ucvtfHMergeS :
    decodeWord (0b01100101#8 ++ 0b01010101101#11 ++ 0b001#3 ++ 0b01000#5 ++ 0b00111#5) = .ok (.ucvtfHMergeS 7 1 8) ∧
      decode [0x07, 0xA5, 0x55, 0x65] = .ok (.ucvtfHMergeS 7 1 8) := by decide

/-- `ucvtf z23.h, p3/z, z13.s`, bits 31:24, 23:13, 12:10 (`Pg`), 9:5 (`Zn`), 4:0 (`Zd`). -/
theorem test_decode_ucvtfHZeroS :
    decodeWord (0b01100100#8 ++ 0b01011101101#11 ++ 0b011#3 ++ 0b01101#5 ++ 0b10111#5) = .ok (.ucvtfHZeroS 23 3 13) ∧
      decode [0xB7, 0xAD, 0x5D, 0x64] = .ok (.ucvtfHZeroS 23 3 13) := by decide

/-- `ucvtf z1.s, p1/m, z2.s`, bits 31:24, 23:13, 12:10 (`Pg`), 9:5 (`Zn`), 4:0 (`Zd`). -/
theorem test_decode_ucvtfSMergeS :
    decodeWord (0b01100101#8 ++ 0b10010101101#11 ++ 0b001#3 ++ 0b00010#5 ++ 0b00001#5) = .ok (.ucvtfSMergeS 1 1 2) ∧
      decode [0x41, 0xA4, 0x95, 0x65] = .ok (.ucvtfSMergeS 1 1 2) := by decide

/-- `ucvtf z2.s, p3/z, z2.s`, bits 31:24, 23:13, 12:10 (`Pg`), 9:5 (`Zn`), 4:0 (`Zd`). -/
theorem test_decode_ucvtfSZeroS :
    decodeWord (0b01100100#8 ++ 0b10011101101#11 ++ 0b011#3 ++ 0b00010#5 ++ 0b00010#5) = .ok (.ucvtfSZeroS 2 3 2) ∧
      decode [0x42, 0xAC, 0x9D, 0x64] = .ok (.ucvtfSZeroS 2 3 2) := by decide

/-- `ucvtf z5.d, p0/m, z6.s`, bits 31:24, 23:13, 12:10 (`Pg`), 9:5 (`Zn`), 4:0 (`Zd`). -/
theorem test_decode_ucvtfDMergeS :
    decodeWord (0b01100101#8 ++ 0b11010001101#11 ++ 0b000#3 ++ 0b00110#5 ++ 0b00101#5) = .ok (.ucvtfDMergeS 5 0 6) ∧
      decode [0xC5, 0xA0, 0xD1, 0x65] = .ok (.ucvtfDMergeS 5 0 6) := by decide

/-- `ucvtf z7.d, p4/z, z6.s`, bits 31:24, 23:13, 12:10 (`Pg`), 9:5 (`Zn`), 4:0 (`Zd`). -/
theorem test_decode_ucvtfDZeroS :
    decodeWord (0b01100100#8 ++ 0b11011100101#11 ++ 0b100#3 ++ 0b00110#5 ++ 0b00111#5) = .ok (.ucvtfDZeroS 7 4 6) ∧
      decode [0xC7, 0xB0, 0xDC, 0x64] = .ok (.ucvtfDZeroS 7 4 6) := by decide

/-- `ucvtf z9.h, p4/m, z10.d`, bits 31:24, 23:13, 12:10 (`Pg`), 9:5 (`Zn`), 4:0 (`Zd`). -/
theorem test_decode_ucvtfHMergeD :
    decodeWord (0b01100101#8 ++ 0b01010111101#11 ++ 0b100#3 ++ 0b01010#5 ++ 0b01001#5) = .ok (.ucvtfHMergeD 9 4 10) ∧
      decode [0x49, 0xB1, 0x57, 0x65] = .ok (.ucvtfHMergeD 9 4 10) := by decide

/-- `ucvtf z3.h, p2/z, z4.d`, bits 31:24, 23:13, 12:10 (`Pg`), 9:5 (`Zn`), 4:0 (`Zd`). -/
theorem test_decode_ucvtfHZeroD :
    decodeWord (0b01100100#8 ++ 0b01011101111#11 ++ 0b010#3 ++ 0b00100#5 ++ 0b00011#5) = .ok (.ucvtfHZeroD 3 2 4) ∧
      decode [0x83, 0xE8, 0x5D, 0x64] = .ok (.ucvtfHZeroD 3 2 4) := by decide

/-- `ucvtf z5.s, p0/m, z5.d`, bits 31:24, 23:13, 12:10 (`Pg`), 9:5 (`Zn`), 4:0 (`Zd`). -/
theorem test_decode_ucvtfSMergeD :
    decodeWord (0b01100101#8 ++ 0b11010101101#11 ++ 0b000#3 ++ 0b00101#5 ++ 0b00101#5) = .ok (.ucvtfSMergeD 5 0 5) ∧
      decode [0xA5, 0xA0, 0xD5, 0x65] = .ok (.ucvtfSMergeD 5 0 5) := by decide

/-- `ucvtf z30.s, p6/z, z29.d`, bits 31:24, 23:13, 12:10 (`Pg`), 9:5 (`Zn`), 4:0 (`Zd`). -/
theorem test_decode_ucvtfSZeroD :
    decodeWord (0b01100100#8 ++ 0b11011101101#11 ++ 0b110#3 ++ 0b11101#5 ++ 0b11110#5) = .ok (.ucvtfSZeroD 30 6 29) ∧
      decode [0xBE, 0xBB, 0xDD, 0x64] = .ok (.ucvtfSZeroD 30 6 29) := by decide

/-- `ucvtf z31.d, p7/m, z31.d`, bits 31:24, 23:13, 12:10 (`Pg`), 9:5 (`Zn`), 4:0 (`Zd`). -/
theorem test_decode_ucvtfDMergeD :
    decodeWord (0b01100101#8 ++ 0b11010111101#11 ++ 0b111#3 ++ 0b11111#5 ++ 0b11111#5) = .ok (.ucvtfDMergeD 31 7 31) ∧
      decode [0xFF, 0xBF, 0xD7, 0x65] = .ok (.ucvtfDMergeD 31 7 31) := by decide

/-- `ucvtf z31.d, p7/z, z31.d`, bits 31:24, 23:13, 12:10 (`Pg`), 9:5 (`Zn`), 4:0 (`Zd`). -/
theorem test_decode_ucvtfDZeroD :
    decodeWord (0b01100100#8 ++ 0b11011101111#11 ++ 0b111#3 ++ 0b11111#5 ++ 0b11111#5) = .ok (.ucvtfDZeroD 31 7 31) ∧
      decode [0xFF, 0xFF, 0xDD, 0x64] = .ok (.ucvtfDZeroD 31 7 31) := by decide

/-- The ten words of L2.6 that must not decode. -/
theorem test_words_out_of_scope :
    ([0x6552A000, 0x6513A000, 0x6593A000, 0x65538000, 0x6553E000,
        0x645C2000, 0x0420BC20, 0x04D12020, 0xD503201F, 0x00000000] : List Word).all
      (fun w => decodeWord w == .error (.notInScope w)) = true := by decide

theorem test_three_bytes_are_truncated : decode [0x20, 0xA0, 0x53] = .error .truncated := by decide

theorem test_decodeTableWord : decodeTableWord 32 0x65D7BFFF = some (.ucvtfDMergeD 31 7 31) := by decide

/-! ## The conversion (L2.1): results under RN, RP, RM, RZ, and what each signals (`I` inexact, `O` overflow) -/

/-- One cell of a conversion table: the result's bits, inexact, overflow. -/
abbrev Cell := Nat × Bool × Bool

/-- One row of a conversion table holds of the model. -/
def rowHolds (n : ElemSize) (v : Nat) (rn rp rm rz : Cell) : Bool :=
  let is (q : RMode) (c : Cell) : Bool :=
    (ucvt v n q).bits.toNat == c.1 && (ucvt v n q).inexact == c.2.1 && (ucvt v n q).overflow == c.2.2
  is .rn rn && is .rp rp && is .rm rm && is .rz rz

/-- Nothing signalled. -/
def ex (x : Nat) : Cell := (x, false, false)
/-- Inexact. -/
def ix (x : Nat) : Cell := (x, true, false)
/-- Overflow and Inexact. -/
def io (x : Nat) : Cell := (x, true, true)

/-- u16 to half (classes 1, 2: `.H` from `.H`). -/
theorem test_convert_u16_to_half :
    (rowHolds .h 0 (ex 0x0000) (ex 0x0000) (ex 0x0000) (ex 0x0000) &&
      rowHolds .h 1 (ex 0x3C00) (ex 0x3C00) (ex 0x3C00) (ex 0x3C00) &&
      rowHolds .h 2 (ex 0x4000) (ex 0x4000) (ex 0x4000) (ex 0x4000) &&
      rowHolds .h 3 (ex 0x4200) (ex 0x4200) (ex 0x4200) (ex 0x4200) &&
      rowHolds .h 1000 (ex 0x63D0) (ex 0x63D0) (ex 0x63D0) (ex 0x63D0) &&
      rowHolds .h 2047 (ex 0x67FF) (ex 0x67FF) (ex 0x67FF) (ex 0x67FF) &&
      rowHolds .h 2048 (ex 0x6800) (ex 0x6800) (ex 0x6800) (ex 0x6800) &&
      rowHolds .h 2049 (ix 0x6800) (ix 0x6801) (ix 0x6800) (ix 0x6800) &&
      rowHolds .h 2050 (ex 0x6801) (ex 0x6801) (ex 0x6801) (ex 0x6801) &&
      rowHolds .h 2051 (ix 0x6802) (ix 0x6802) (ix 0x6801) (ix 0x6801) &&
      rowHolds .h 4095 (ix 0x6C00) (ix 0x6C00) (ix 0x6BFF) (ix 0x6BFF) &&
      rowHolds .h 4097 (ix 0x6C00) (ix 0x6C01) (ix 0x6C00) (ix 0x6C00) &&
      rowHolds .h 32768 (ex 0x7800) (ex 0x7800) (ex 0x7800) (ex 0x7800) &&
      rowHolds .h 65503 (ix 0x7BFF) (ix 0x7BFF) (ix 0x7BFE) (ix 0x7BFE) &&
      rowHolds .h 65504 (ex 0x7BFF) (ex 0x7BFF) (ex 0x7BFF) (ex 0x7BFF) &&
      rowHolds .h 65519 (ix 0x7BFF) (io 0x7C00) (ix 0x7BFF) (ix 0x7BFF) &&
      rowHolds .h 65520 (io 0x7C00) (io 0x7C00) (ix 0x7BFF) (ix 0x7BFF) &&
      rowHolds .h 65535 (io 0x7C00) (io 0x7C00) (ix 0x7BFF) (ix 0x7BFF)) = true := by decide

/-- u32 to half (classes 3, 4: `.H` from `.S`). -/
theorem test_convert_u32_to_half :
    (rowHolds .h 0 (ex 0x0000) (ex 0x0000) (ex 0x0000) (ex 0x0000) &&
      rowHolds .h 1 (ex 0x3C00) (ex 0x3C00) (ex 0x3C00) (ex 0x3C00) &&
      rowHolds .h 2049 (ix 0x6800) (ix 0x6801) (ix 0x6800) (ix 0x6800) &&
      rowHolds .h 65504 (ex 0x7BFF) (ex 0x7BFF) (ex 0x7BFF) (ex 0x7BFF) &&
      rowHolds .h 65505 (ix 0x7BFF) (io 0x7C00) (ix 0x7BFF) (ix 0x7BFF) &&
      rowHolds .h 65519 (ix 0x7BFF) (io 0x7C00) (ix 0x7BFF) (ix 0x7BFF) &&
      rowHolds .h 65520 (io 0x7C00) (io 0x7C00) (ix 0x7BFF) (ix 0x7BFF) &&
      rowHolds .h 65535 (io 0x7C00) (io 0x7C00) (ix 0x7BFF) (ix 0x7BFF) &&
      rowHolds .h 65536 (io 0x7C00) (io 0x7C00) (io 0x7BFF) (io 0x7BFF) &&
      rowHolds .h 2147483648 (io 0x7C00) (io 0x7C00) (io 0x7BFF) (io 0x7BFF) &&
      rowHolds .h 4294967295 (io 0x7C00) (io 0x7C00) (io 0x7BFF) (io 0x7BFF)) = true := by decide

/-- u64 to half (classes 9, 10: `.H` from `.D`). -/
theorem test_convert_u64_to_half :
    (rowHolds .h 0 (ex 0x0000) (ex 0x0000) (ex 0x0000) (ex 0x0000) &&
      rowHolds .h 7 (ex 0x4700) (ex 0x4700) (ex 0x4700) (ex 0x4700) &&
      rowHolds .h 2051 (ix 0x6802) (ix 0x6802) (ix 0x6801) (ix 0x6801) &&
      rowHolds .h 65520 (io 0x7C00) (io 0x7C00) (ix 0x7BFF) (ix 0x7BFF) &&
      rowHolds .h 4294967296 (io 0x7C00) (io 0x7C00) (io 0x7BFF) (io 0x7BFF) &&
      rowHolds .h 9223372036854775808 (io 0x7C00) (io 0x7C00) (io 0x7BFF) (io 0x7BFF) &&
      rowHolds .h 18446744073709551615 (io 0x7C00) (io 0x7C00) (io 0x7BFF) (io 0x7BFF)) = true := by decide

/-- u32 to single (classes 5, 6: `.S` from `.S`). -/
theorem test_convert_u32_to_single :
    (rowHolds .s 0 (ex 0x00000000) (ex 0x00000000) (ex 0x00000000) (ex 0x00000000) &&
      rowHolds .s 1 (ex 0x3F800000) (ex 0x3F800000) (ex 0x3F800000) (ex 0x3F800000) &&
      rowHolds .s 16777215 (ex 0x4B7FFFFF) (ex 0x4B7FFFFF) (ex 0x4B7FFFFF) (ex 0x4B7FFFFF) &&
      rowHolds .s 16777216 (ex 0x4B800000) (ex 0x4B800000) (ex 0x4B800000) (ex 0x4B800000) &&
      rowHolds .s 16777217 (ix 0x4B800000) (ix 0x4B800001) (ix 0x4B800000) (ix 0x4B800000) &&
      rowHolds .s 16777218 (ex 0x4B800001) (ex 0x4B800001) (ex 0x4B800001) (ex 0x4B800001) &&
      rowHolds .s 16777219 (ix 0x4B800002) (ix 0x4B800002) (ix 0x4B800001) (ix 0x4B800001) &&
      rowHolds .s 2147483648 (ex 0x4F000000) (ex 0x4F000000) (ex 0x4F000000) (ex 0x4F000000) &&
      rowHolds .s 2147483776 (ix 0x4F000000) (ix 0x4F000001) (ix 0x4F000000) (ix 0x4F000000) &&
      rowHolds .s 2147483777 (ix 0x4F000001) (ix 0x4F000001) (ix 0x4F000000) (ix 0x4F000000) &&
      rowHolds .s 2147484032 (ix 0x4F000002) (ix 0x4F000002) (ix 0x4F000001) (ix 0x4F000001) &&
      rowHolds .s 4294967167 (ix 0x4F7FFFFF) (ix 0x4F800000) (ix 0x4F7FFFFF) (ix 0x4F7FFFFF) &&
      rowHolds .s 4294967168 (ix 0x4F800000) (ix 0x4F800000) (ix 0x4F7FFFFF) (ix 0x4F7FFFFF) &&
      rowHolds .s 4294967295 (ix 0x4F800000) (ix 0x4F800000) (ix 0x4F7FFFFF) (ix 0x4F7FFFFF) &&
      rowHolds .s 123456789 (ix 0x4CEB79A3) (ix 0x4CEB79A3) (ix 0x4CEB79A2) (ix 0x4CEB79A2)) = true := by decide

/-- u32 to double (classes 7, 8: `.D` from `.S`). -/
theorem test_convert_u32_to_double :
    (rowHolds .d 0 (ex 0x0000000000000000) (ex 0x0000000000000000) (ex 0x0000000000000000) (ex 0x0000000000000000) &&
      rowHolds .d 1 (ex 0x3FF0000000000000) (ex 0x3FF0000000000000) (ex 0x3FF0000000000000) (ex 0x3FF0000000000000) &&
      rowHolds .d 4294967295 (ex 0x41EFFFFFFFE00000) (ex 0x41EFFFFFFFE00000) (ex 0x41EFFFFFFFE00000) (ex 0x41EFFFFFFFE00000) &&
      rowHolds .d 2147483648 (ex 0x41E0000000000000) (ex 0x41E0000000000000) (ex 0x41E0000000000000) (ex 0x41E0000000000000) &&
      rowHolds .d 123456789 (ex 0x419D6F3454000000) (ex 0x419D6F3454000000) (ex 0x419D6F3454000000) (ex 0x419D6F3454000000)) = true := by decide

/-- u64 to single (classes 11, 12: `.S` from `.D`). -/
theorem test_convert_u64_to_single :
    (rowHolds .s 0 (ex 0x00000000) (ex 0x00000000) (ex 0x00000000) (ex 0x00000000) &&
      rowHolds .s 1 (ex 0x3F800000) (ex 0x3F800000) (ex 0x3F800000) (ex 0x3F800000) &&
      rowHolds .s 16777217 (ix 0x4B800000) (ix 0x4B800001) (ix 0x4B800000) (ix 0x4B800000) &&
      rowHolds .s 1099511693312 (ix 0x53800000) (ix 0x53800001) (ix 0x53800000) (ix 0x53800000) &&
      rowHolds .s 1099511693313 (ix 0x53800001) (ix 0x53800001) (ix 0x53800000) (ix 0x53800000) &&
      rowHolds .s 1099511824384 (ix 0x53800002) (ix 0x53800002) (ix 0x53800001) (ix 0x53800001) &&
      rowHolds .s 9223372036854775808 (ex 0x5F000000) (ex 0x5F000000) (ex 0x5F000000) (ex 0x5F000000) &&
      rowHolds .s 18446744073709551615 (ix 0x5F800000) (ix 0x5F800000) (ix 0x5F7FFFFF) (ix 0x5F7FFFFF) &&
      rowHolds .s 18446743523953737727 (ix 0x5F7FFFFF) (ix 0x5F800000) (ix 0x5F7FFFFF) (ix 0x5F7FFFFF) &&
      rowHolds .s 18446743523953737728 (ix 0x5F800000) (ix 0x5F800000) (ix 0x5F7FFFFF) (ix 0x5F7FFFFF)) = true := by decide

/-- u64 to double (classes 13, 14: `.D` from `.D`). -/
theorem test_convert_u64_to_double :
    (rowHolds .d 0 (ex 0x0000000000000000) (ex 0x0000000000000000) (ex 0x0000000000000000) (ex 0x0000000000000000) &&
      rowHolds .d 1 (ex 0x3FF0000000000000) (ex 0x3FF0000000000000) (ex 0x3FF0000000000000) (ex 0x3FF0000000000000) &&
      rowHolds .d 9007199254740991 (ex 0x433FFFFFFFFFFFFF) (ex 0x433FFFFFFFFFFFFF) (ex 0x433FFFFFFFFFFFFF) (ex 0x433FFFFFFFFFFFFF) &&
      rowHolds .d 9007199254740992 (ex 0x4340000000000000) (ex 0x4340000000000000) (ex 0x4340000000000000) (ex 0x4340000000000000) &&
      rowHolds .d 9007199254740993 (ix 0x4340000000000000) (ix 0x4340000000000001) (ix 0x4340000000000000) (ix 0x4340000000000000) &&
      rowHolds .d 9007199254740994 (ex 0x4340000000000001) (ex 0x4340000000000001) (ex 0x4340000000000001) (ex 0x4340000000000001) &&
      rowHolds .d 9007199254740995 (ix 0x4340000000000002) (ix 0x4340000000000002) (ix 0x4340000000000001) (ix 0x4340000000000001) &&
      rowHolds .d 9223372036854775808 (ex 0x43E0000000000000) (ex 0x43E0000000000000) (ex 0x43E0000000000000) (ex 0x43E0000000000000) &&
      rowHolds .d 9223372036854776832 (ix 0x43E0000000000000) (ix 0x43E0000000000001) (ix 0x43E0000000000000) (ix 0x43E0000000000000) &&
      rowHolds .d 9223372036854776833 (ix 0x43E0000000000001) (ix 0x43E0000000000001) (ix 0x43E0000000000000) (ix 0x43E0000000000000) &&
      rowHolds .d 9223372036854778880 (ix 0x43E0000000000002) (ix 0x43E0000000000002) (ix 0x43E0000000000001) (ix 0x43E0000000000001) &&
      rowHolds .d 18446744073709551615 (ix 0x43F0000000000000) (ix 0x43F0000000000000) (ix 0x43EFFFFFFFFFFFFF) (ix 0x43EFFFFFFFFFFFFF) &&
      rowHolds .d 18446744073709550591 (ix 0x43EFFFFFFFFFFFFF) (ix 0x43F0000000000000) (ix 0x43EFFFFFFFFFFFFF) (ix 0x43EFFFFFFFFFFFFF) &&
      rowHolds .d 18446744073709550592 (ix 0x43F0000000000000) (ix 0x43F0000000000000) (ix 0x43EFFFFFFFFFFFFF) (ix 0x43EFFFFFFFFFFFFF) &&
      rowHolds .d 81985529216486895 (ix 0x43723456789ABCDF) (ix 0x43723456789ABCDF) (ix 0x43723456789ABCDE) (ix 0x43723456789ABCDE)) = true := by decide

/-! ## One instruction of each class (L2.2): `d = 0, g = 0, n = 1`, RN, FPSR 0 -/

/-- `ucvtf z0.h, p0/m, z1.h` -/
theorem test_step_ucvtfHMergeH :
    gives (s0 [(0, 0x5151)] [(0, 0xAAAABBBBCCCCDDDDEEEEFFFF11112222), (1, 0xFFF00801080007FF0003000200010000)]
      0x6553A020) 0 0x7C006800CCCC67FF4200400011110000 0x14 = true := by decide

/-- `ucvtf z0.h, p0/z, z1.h` -/
theorem test_step_ucvtfHZeroH :
    gives (s0 [(0, 0x5151)] [(0, 0xAAAABBBBCCCCDDDDEEEEFFFF11112222), (1, 0xFFF00801080007FF0003000200010000)]
      0x645CE020) 0 0x7C006800000067FF4200400000000000 0x14 = true := by decide

/-- `ucvtf z0.h, p0/m, z1.s` -/
theorem test_step_ucvtfHMergeS :
    gives (s0 [(0, 0x0F1F)] [(0, 0xAAAABBBBCCCCDDDDEEEEFFFF11112222), (1, 0xFFFFFFFF010000010000FFF000000007)]
      0x6555A020) 0 0xAAAABBBB00007C0000007C0000004700 0x14 = true := by decide

/-- `ucvtf z0.h, p0/z, z1.s` -/
theorem test_step_ucvtfHZeroS :
    gives (s0 [(0, 0x0F1F)] [(0, 0xAAAABBBBCCCCDDDDEEEEFFFF11112222), (1, 0xFFFFFFFF010000010000FFF000000007)]
      0x645DA020) 0 0x0000000000007C0000007C0000004700 0x14 = true := by decide

/-- `ucvtf z0.s, p0/m, z1.s` -/
theorem test_step_ucvtfSMergeS :
    gives (s0 [(0, 0x0F1F)] [(0, 0xAAAABBBBCCCCDDDDEEEEFFFF11112222), (1, 0xFFFFFFFF010000010000FFF000000007)]
      0x6595A020) 0 0xAAAABBBB4B800000477FF00040E00000 0x10 = true := by decide

/-- `ucvtf z0.s, p0/z, z1.s` -/
theorem test_step_ucvtfSZeroS :
    gives (s0 [(0, 0x0F1F)] [(0, 0xAAAABBBBCCCCDDDDEEEEFFFF11112222), (1, 0xFFFFFFFF010000010000FFF000000007)]
      0x649DA020) 0 0x000000004B800000477FF00040E00000 0x10 = true := by decide

/-- `ucvtf z0.d, p0/m, z1.s` -/
theorem test_step_ucvtfDMergeS :
    gives (s0 [(0, 0xFE01)] [(0, 0xAAAABBBBCCCCDDDDEEEEFFFF11112222), (1, 0xDEADBEEFFFFFFFFF1234567800000001)]
      0x65D1A020) 0 0xAAAABBBBCCCCDDDD3FF0000000000000 0x00 = true := by decide

/-- `ucvtf z0.d, p0/z, z1.s` -/
theorem test_step_ucvtfDZeroS :
    gives (s0 [(0, 0xFE01)] [(0, 0xAAAABBBBCCCCDDDDEEEEFFFF11112222), (1, 0xDEADBEEFFFFFFFFF1234567800000001)]
      0x64DCA020) 0 0x00000000000000003FF0000000000000 0x00 = true := by decide

/-- `ucvtf z0.h, p0/m, z1.d` -/
theorem test_step_ucvtfHMergeD :
    gives (s0 [(0, 0xFE01)] [(0, 0xAAAABBBBCCCCDDDDEEEEFFFF11112222), (1, 0xFFFFFFFFFFFFFFFF0020000000000001)]
      0x6557A020) 0 0xAAAABBBBCCCCDDDD0000000000007C00 0x14 = true := by decide

/-- `ucvtf z0.h, p0/z, z1.d` -/
theorem test_step_ucvtfHZeroD :
    gives (s0 [(0, 0xFE01)] [(0, 0xAAAABBBBCCCCDDDDEEEEFFFF11112222), (1, 0xFFFFFFFFFFFFFFFF0020000000000001)]
      0x645DE020) 0 0x00000000000000000000000000007C00 0x14 = true := by decide

/-- `ucvtf z0.s, p0/m, z1.d` -/
theorem test_step_ucvtfSMergeD :
    gives (s0 [(0, 0xFE01)] [(0, 0xAAAABBBBCCCCDDDDEEEEFFFF11112222), (1, 0xFFFFFFFFFFFFFFFF0020000000000001)]
      0x65D5A020) 0 0xAAAABBBBCCCCDDDD000000005A000000 0x10 = true := by decide

/-- `ucvtf z0.s, p0/z, z1.d` -/
theorem test_step_ucvtfSZeroD :
    gives (s0 [(0, 0xFE01)] [(0, 0xAAAABBBBCCCCDDDDEEEEFFFF11112222), (1, 0xFFFFFFFFFFFFFFFF0020000000000001)]
      0x64DDA020) 0 0x0000000000000000000000005A000000 0x10 = true := by decide

/-- `ucvtf z0.d, p0/m, z1.d` -/
theorem test_step_ucvtfDMergeD :
    gives (s0 [(0, 0xFE01)] [(0, 0xAAAABBBBCCCCDDDDEEEEFFFF11112222), (1, 0xFFFFFFFFFFFFFFFF0020000000000001)]
      0x65D7A020) 0 0xAAAABBBBCCCCDDDD4340000000000000 0x10 = true := by decide

/-- `ucvtf z0.d, p0/z, z1.d` -/
theorem test_step_ucvtfDZeroD :
    gives (s0 [(0, 0xFE01)] [(0, 0xAAAABBBBCCCCDDDDEEEEFFFF11112222), (1, 0xFFFFFFFFFFFFFFFF0020000000000001)]
      0x64DDE020) 0 0x00000000000000004340000000000000 0x10 = true := by decide

/-! ## Corner cases (L2.3 to L2.7, L3) -/

/-- L2.3 d: at esize 16 the odd predicate bits activate nothing. -/
theorem test_odd_predicate_bits_ignored :
    gives (s0 [(1, 0xAAAA)] [(2, 0x123456789ABCDEF00FEDCBA987654321), (3, 0xFFFFFFFFFFFFFFFFFFFFFFFFFFFFFFFF)]
      0x6553A462) 2 0x123456789ABCDEF00FEDCBA987654321 0x00 = true := by decide

/-- L2.7: a zeroing class executes without FEAT_SVE and FEAT_SME where FEAT_SVE2p2 is present. -/
theorem test_zeroing_gate_reads_2p2_only :
    gives (start { Config.default with featSve := false, featSme := false, featSme2p2 := false } [] []
      0x645CE000) 0 0 0 = true := by decide

/-- L2.3 h: zero-extended halves, one exact at the top, one inexact, one overflow. -/
theorem test_half_from_word_is_zero_extended :
    gives (s0 [(1, 0x1111)] [(2, 0xFFFFFFFFFFFFFFFFFFFFFFFFFFFFFFFF), (3, 0x000100000000FFEF0000FFE000000000)]
      0x6555A462) 2 0x00007C0000007BFF00007BFF00000000 0x14 = true := by decide

/-- L3 Program C, step 1: inactive elements become zero and signal nothing. -/
theorem test_program_C :
    gives (s0 [(3, 0x0110)] [(5, 0x55555555555555555555555555555555), (6, 0x0000FFEF0000080100010000000003E8)]
      0x645DACC5) 5 0x000000000000680000007C0000000000 0x14 = true := by decide

/-- L2.4, RP, flags already set stay set. -/
theorem test_rounding_toward_plus_infinity_sticky_flags :
    gives { s0 [(0, 0x1111)] [(1, 0xFFFFFFFF010000030100000101000000)] 0x6595A020 with
      fpcr := 0x00400000, fpsr := 0x8F } 0 0x4F8000004B8000024B8000014B800000 0x9F = true := by decide

/-- L2.3 f: zeroing in place under P7. -/
theorem test_zeroing_in_place :
    gives (s0 [(7, 0x0001)] [(4, 0x00000009000000080000000700000006)] 0x649DBC84) 4 0x40C00000 0x00 = true := by
  decide

/-- L3 Program D, step 1: the upper halves of the source elements are not read. -/
theorem test_program_D :
    gives (s0 [(0, 0x0101)] [(0, 0x00000005000000040000000300000002), (1, 0x11111111111111111111111111111111)]
      0x65D1A001) 1 0x40100000000000004000000000000000 0x00 = true := by decide

/-- L2.3 i: only the low 32 bits of each source element are read. -/
theorem test_double_from_word_zeroing :
    gives (s0 [(1, 0x0101)] [(2, 0xFFFFFFFFFFFFFFFFFFFFFFFFFFFFFFFF), (3, 0xFFFFFFFF8000000000000000FFFFFFFF)]
      0x64DCA462) 2 0x41E000000000000041EFFFFFFFE00000 0x00 = true := by decide

/-- L3 Program A, step 3: both elements overflow to infinity. -/
theorem test_program_A :
    gives (s0 [(0, 0x0101)] [(1, 0x0020000000000003000000000000FFF0), (4, 0x44444444444444444444444444444444)]
      0x6557A024) 4 0x0000000000007C000000000000007C00 0x14 = true := by decide

/-- L2.3 j: the single-precision result is in the low half, the upper half zero. -/
theorem test_single_from_doubleword_is_zero_extended :
    gives (s0 [(1, 0x0101)] [(2, 0xFFFFFFFFFFFFFFFFFFFFFFFFFFFFFFFF), (3, 0x00000100000100010000000001000001)]
      0x65D5A462) 2 0x0000000053800001000000004B800000 0x10 = true := by decide

/-- L2.5 at `VL = 256`: element 2 is inactive and keeps its bits. -/
theorem test_vector_length_256 :
    gives (start { Config.default with vlq := 1 } [(0, 0x01000101)]
      [(0, 0xDDDDDDDDDDDDDDDDCCCCCCCCCCCCCCCCBBBBBBBBBBBBBBBBAAAAAAAAAAAAAAAA),
       (1, 0x0000000000000004002000000000000100000000000000020000000000000001)] 0x65D7A020)
      0 0x4010000000000000CCCCCCCCCCCCCCCC40000000000000003FF0000000000000 0x00 = true := by decide

/-- L2.3 b: no active element, zeroing. -/
theorem test_zeroing_without_active_elements :
    gives (s0 [] [(2, 0x123456789ABCDEF00FEDCBA987654321), (3, 0xFFFFFFFFFFFFFFFFFFFFFFFFFFFFFFFF)]
      0x64DDE462) 2 0 0x00 = true := by decide

/-- L3 Program E, step 2, with the latch as the MOVPRFX of step 1 leaves it. -/
theorem test_program_E :
    gives { s0 [(0, 0x0100)] [(0, 0x1111111111111111AAAAAAAAAAAAAAAA), (2, 0x00000000000000050000000000000064)]
      0x65D7A040 with latch := some { pred := none, zd := 0, zn := 1 } }
      0 0x4014000000000000AAAAAAAAAAAAAAAA 0x00 = true := by decide

/-- L2.7: UNDEFINED is decided before the access check. -/
theorem test_undefined_before_access_check :
    step (start { Config.default with featSve2p2 := false, featSme2p2 := false, sveAccess := .trapped 5 } [] []
      0x645CE000) = .fault (.undefinedInstruction 0x645CE000) := by rfl

/-- L2.7: the access check precedes the predicate read. -/
theorem test_access_check_with_no_active_element :
    step (start { Config.default with sveAccess := .trapped 5 } [] [] 0x6595A020) = .fault (.sveAccess 5) := by rfl

/-- L2.7: the access check that makes the instruction UNDEFINED. -/
theorem test_access_check_undefined :
    step (start { Config.default with sveAccess := .undefined } [] [] 0x6595A020) =
      .fault (.undefinedInstruction 0x6595A020) := by rfl

/-- L2.7: Inexact without Overflow is not trapped by OFE. -/
theorem test_OFE_does_not_trap_inexact :
    gives { start { Config.default with fpTraps := .supported } [(0, 0x0001)] [(1, 0x0000FFEF)] 0x6555A020 with
      fpcr := 0x400 } 0 0x7BFF 0x10 = true := by decide

/-- L2.7: a word that is not one of the 14. -/
theorem test_scvtf_not_in_scope :
    step (s0 [] [] 0x6552A000) = .refused (.notInScope 0x6552A000) := by rfl

/-- R90: nothing is placed at reset, so the run is over at once. -/
theorem test_reset_is_over : step State.reset = .refused .runOver := by rfl

/-! ## Witnesses: every hypothesis of a statement, met at once

The states: `plain` runs `ucvtf z0.s, p0/m, z1.s` with all elements active and an inexact source element; `zeroing`
its `/Z` form; the others change one thing. -/

/-- L2.4's instruction and registers. -/
def plain : State := s0 [(0, 0x1111)] [(1, 0xFFFFFFFF010000030100000101000000)] 0x6595A020

/-- `ucvtf z0.s, p0/z, z1.s`, `Pg` with one active element. -/
def zeroing : State := s0 [(0, 0x0001)] [(0, 0xFF), (1, 0x01000001)] 0x649DA020

/-- The instruction of `plain`. -/
abbrev sMerge : Instr := .ucvtfSMergeS 0 0 1

/-- The instruction of `zeroing`. -/
abbrev sZero : Instr := .ucvtfSZeroS 0 0 1

/-- No feature at all, and an access check that would trap. -/
def bare : State :=
  start { Config.default with featSve := false, featSme := false, featSve2p2 := false, featSme2p2 := false,
                              sveAccess := .trapped 5 } [] [] 0x6595A020

/-- The access check in each of its failing answers. -/
def checked (a : SveAccess) : State := start { Config.default with sveAccess := a } [] [] 0x6595A020

/-- Both traps enabled, and a source element that overflows half-precision. -/
def trapping : State :=
  { start { Config.default with fpTraps := .supported } [(0, 0x0001)] [(1, 0x00010000)] 0x6555A020 with
    fpcr := 0x1400 }

/-- The last word of the address space. -/
def atTop : State := start { Config.default with entry := 0xFFFFFFFFFFFFFFFC } [] [] 0x65D7A020

theorem witness_DecodeEncodeRoundTrip :
    (Instr.ucvtfHMergeH 0 0 0).wellFormed = true ∧ (Instr.ucvtfDZeroD 31 7 31).wellFormed = true := by decide

theorem witness_EncodeDecodeRoundTrip : decodeWord 0x64DDFFFF = .ok (.ucvtfDZeroD 31 7 31) := by decide

/-- The `z31, p7, z31` word of each of the 14 classes (L2.6), with the fields' values and the class's key; a word that
decodes; and one that matches no class. -/
theorem witness_DecodeIsTheMatchTable :
    (∀ c ∈ ([(0x6553BFFF, 0x6553A000), (0x645CFFFF, 0x645CE000), (0x6555BFFF, 0x6555A000), (0x645DBFFF, 0x645DA000),
        (0x6595BFFF, 0x6595A000), (0x649DBFFF, 0x649DA000), (0x65D1BFFF, 0x65D1A000), (0x64DCBFFF, 0x64DCA000),
        (0x6557BFFF, 0x6557A000), (0x645DFFFF, 0x645DE000), (0x65D5BFFF, 0x65D5A000), (0x64DDBFFF, 0x64DDA000),
        (0x65D7BFFF, 0x65D7A000), (0x64DDFFFF, 0x64DDE000)] : List (Word × Word)),
      (31 : ZReg).val = c.1.toNat % 32 ∧ (7 : PReg).val = c.1.toNat / 1024 % 8 ∧
        (31 : ZReg).val = c.1.toNat / 32 % 32 ∧ c.1 &&& 0xFFFFE000 = c.2) ∧
      decodeWord 0x6553A000 = .ok (.ucvtfHMergeH 0 0 0) ∧
      (0x6552A000 : Word) &&& 0xFFFFE000 ∉ ([0x6553A000, 0x645CE000, 0x6555A000, 0x645DA000, 0x6595A000, 0x649DA000,
        0x65D1A000, 0x64DCA000, 0x6557A000, 0x645DE000, 0x65D5A000, 0x64DDA000, 0x65D7A000, 0x64DDE000] : List Word) := by
  refine ⟨?_, by decide, by decide⟩
  simp only [List.forall_mem_cons, List.not_mem_nil, false_implies, implies_true, and_true]
  decide

/-- The two ends of the address space, and a misaligned address. -/
theorem witness_FetchReadsLoadedWord :
    ((0xFFFFFFFFFFFFFFFC : Addr).toNat % 4 = 0 ∧ (0 : Addr) ≠ 0xFFFFFFFFFFFFFFFC) ∧
      ((0 : Addr).toNat % 4 = 0 ∧ (3 : Addr) ≠ 0 ∧ (3 : Addr).toNat % 4 ≠ 0) := by decide

theorem witness_LoadedInstructionRunsNext :
    (Instr.ucvtfSZeroD 30 6 29).wellFormed = true ∧ State.reset.pc.toNat % 4 = 0 := by decide

theorem witness_StepRunsDecodedInstruction :
    plain.outcome = .running ∧ plain.pc ≠ plain.cfg.endPc ∧ plain.fetch = some 0x6595A020 ∧
      decodeWord 0x6595A020 = .ok sMerge := by decide

theorem witness_WordsOutOfScopeRefused :
    (0x64DDFFFF : Word) &&& 0xFFFFE000 ∈ ([0x6553A000, 0x645CE000, 0x6555A000, 0x645DA000, 0x6595A000, 0x649DA000,
        0x65D1A000, 0x64DCA000, 0x6557A000, 0x645DE000, 0x65D5A000, 0x64DDA000, 0x65D7A000, 0x64DDE000] : List Word) ∧
    let s := s0 [] [] 0x0420BC20
    s.outcome = .running ∧ s.pc ≠ s.cfg.endPc ∧ s.fetch = some 0x0420BC20 ∧
      (0x0420BC20 : Word) &&& 0xFFFFE000 ∉ ([0x6553A000, 0x645CE000, 0x6555A000, 0x645DA000, 0x6595A000, 0x649DA000,
        0x65D1A000, 0x64DCA000, 0x6557A000, 0x645DE000, 0x65D5A000, 0x64DDA000, 0x65D7A000, 0x64DDE000] : List Word) := by
  decide

theorem witness_NoStepAtEndOrOutsideText :
    (State.reset.outcome = .running ∧ State.reset.pc = State.reset.cfg.endPc) ∧
      let s := { plain with pc := 0x2000 }
      s.outcome = .running ∧ s.pc ≠ s.cfg.endPc ∧ s.text.readWord s.pc = none := by decide

theorem witness_StopsAreTerminalAndSticky :
    exec sMerge bare = .fault (.undefinedInstruction 0x6595A020) ∧
      exec (.ucvtfHMergeS 0 0 1) trapping = .refused .trappedFP ∧
      { plain with outcome := .refused .pcWrap }.outcome ≠ .running := ⟨rfl, rfl, by decide⟩

theorem witness_FeatureGateUndefined :
    (LatchAllows sMerge bare ∧ sMerge.merging = true ∧ bare.cfg.featSve = false ∧ bare.cfg.featSme = false) ∧
      LatchAllows sZero bare ∧ sZero.merging = false ∧ bare.cfg.featSve2p2 = false ∧ bare.cfg.featSme2p2 = false :=
  ⟨⟨latch_none _ _ rfl, by decide⟩, latch_none _ _ rfl, by decide⟩

theorem witness_SveAccessCheckStops :
    (LatchAllows sMerge (checked .undefined) ∧ FeaturePresent sMerge (checked .undefined) ∧
        (checked .undefined).cfg.sveAccess = .undefined) ∧
      LatchAllows sMerge (checked (.trapped 5)) ∧ FeaturePresent sMerge (checked (.trapped 5)) ∧
        (checked (.trapped 5)).cfg.sveAccess = .trapped 5 :=
  ⟨⟨latch_none _ _ rfl, by unfold FeaturePresent; decide, rfl⟩,
    latch_none _ _ rfl, by unfold FeaturePresent; decide, rfl⟩

/-- `plain` with a latched MOVPRFX. -/
def latched (m : MovPrefix) : State := { plain with latch := some m }

/-- A conforming latch; one before a zeroing form; one with another destination; one with another predicate and
element size; and a merging form with `Zd` the same as `Zn`. -/
theorem witness_MovprfxLatchRules :
    LatchAllows sMerge (latched ⟨some ⟨0, 32, true⟩, 0, 5⟩) ∧
      ((latched ⟨none, 0, 5⟩).latch = some ⟨none, 0, 5⟩ ∧ sZero.merging = false) ∧
      ((latched ⟨none, 3, 5⟩).latch = some ⟨none, 3, 5⟩ ∧ sMerge.merging = true ∧ (3 : ZReg) ≠ sMerge.zd) ∧
      ((latched ⟨some ⟨1, 64, false⟩, 0, 5⟩).latch = some ⟨some ⟨1, 64, false⟩, 0, 5⟩ ∧
        (1 : PReg) ≠ sMerge.pg ∧ 64 ≠ sMerge.elemSize.bits) ∧
      ((Instr.ucvtfSMergeS 1 0 1).merging = true ∧ (Instr.ucvtfSMergeS 1 0 1).zd = (Instr.ucvtfSMergeS 1 0 1).zn) := by
  refine ⟨?_, by decide, by decide, by decide, by decide⟩
  intro m hm
  cases hm
  refine ⟨rfl, rfl, by decide, ?_⟩
  intro p hp
  cases hp
  decide

/-- Both sides: an enabled Overflow, and an enabled Inexact with no Overflow. -/
theorem witness_TrappedExactlyWhenEnabled :
    (LatchAllows (.ucvtfHMergeS 0 0 1) trapping ∧ FeaturePresent (.ucvtfHMergeS 0 0 1) trapping ∧
        trapping.cfg.sveAccess = .allowed ∧ OverflowTrapEnabled trapping ∧
        trapping.someOverflow (.ucvtfHMergeS 0 0 1)) ∧
      InexactTrapEnabled trapping ∧ trapping.someInexact (.ucvtfHMergeS 0 0 1) := by
  refine ⟨⟨latch_none _ _ rfl, ?_, rfl, ?_, 0, by decide, ?_, ?_⟩, ?_, 0, by decide, ?_, ?_⟩
  · unfold FeaturePresent; decide
  · unfold OverflowTrapEnabled; decide
  · unfold State.isActive; decide
  · decide
  · unfold InexactTrapEnabled; decide
  · unfold State.isActive; decide
  · decide

/-- Every trap-enable bit stored, an inexact active element, and traps not supported: the instruction completes. -/
theorem witness_NotSupportedNeverTraps :
    plain.cfg.fpTraps = .notSupported ∧
      completes (exec sMerge { plain with fpcr := 0x9F00 }) = true := ⟨rfl, by decide⟩

theorem witness_PcWrapRefused :
    LatchAllows (.ucvtfDMergeD 0 0 1) atTop ∧ FeaturePresent (.ucvtfDMergeD 0 0 1) atTop ∧
      atTop.cfg.sveAccess = .allowed ∧ ¬ (InexactTrapEnabled atTop ∧ atTop.someInexact (.ucvtfDMergeD 0 0 1)) ∧
      ¬ (OverflowTrapEnabled atTop ∧ atTop.someOverflow (.ucvtfDMergeD 0 0 1)) ∧ 2 ^ 64 ≤ atTop.pc.toNat + 4 := by
  refine ⟨latch_none _ _ rfl, ?_, rfl, fun h => ?_, fun h => ?_, by decide⟩
  · unfold FeaturePresent; decide
  · exact absurd h.1.1 (by decide)
  · exact absurd h.1.1 (by decide)

theorem witness_EveryStopIsListed :
    exec sMerge bare = .fault (.undefinedInstruction 0x6595A020) ∧
      exec sMerge (checked (.trapped 5)) = .fault (.sveAccess 5) ∧
      exec (.ucvtfHMergeS 0 0 1) trapping = .refused .trappedFP ∧
      exec (.ucvtfDMergeD 0 0 1) atTop = .refused .pcWrap ∧
      exec sZero { zeroing with latch := some ⟨none, 0, 1⟩ } = .refused .movprfxUnpredictable :=
  ⟨rfl, rfl, rfl, rfl, rfl⟩

/-- An instruction that completes, and one that does not. -/
theorem witness_CompletesExactlyWhen :
    completes (exec sMerge plain) = true ∧ completes (exec sMerge bare) = false := ⟨by decide, by decide⟩

/-- In `plain`, where no trap is supported, every form may execute and nothing is trapped. -/
theorem plain_may_execute (i : Instr) :
    MayExecute i plain ∧ ¬ (InexactTrapEnabled plain ∧ plain.someInexact i) ∧
      ¬ (OverflowTrapEnabled plain ∧ plain.someOverflow i) := by
  refine ⟨⟨latch_none _ _ rfl, ?_, rfl, by decide⟩, fun h => ?_, fun h => ?_⟩
  · exact ⟨fun _ => Or.inl rfl, fun _ => Or.inl rfl⟩
  · exact absurd h.1.1 (by decide)
  · exact absurd h.1.1 (by decide)

theorem witness_HalfFromHalfwordResult :
    (MayExecute (.ucvtfHMergeH 0 0 1) plain ∧ ¬ (InexactTrapEnabled plain ∧ plain.someInexact (.ucvtfHMergeH 0 0 1)) ∧
        ¬ (OverflowTrapEnabled plain ∧ plain.someOverflow (.ucvtfHMergeH 0 0 1))) ∧
      MayExecute (.ucvtfHZeroH 0 0 1) plain ∧ ¬ (InexactTrapEnabled plain ∧ plain.someInexact (.ucvtfHZeroH 0 0 1)) ∧
        ¬ (OverflowTrapEnabled plain ∧ plain.someOverflow (.ucvtfHZeroH 0 0 1)) :=
  ⟨plain_may_execute _, plain_may_execute _⟩

theorem witness_HalfFromWordResult :
    (MayExecute (.ucvtfHMergeS 0 0 1) plain ∧ ¬ (InexactTrapEnabled plain ∧ plain.someInexact (.ucvtfHMergeS 0 0 1)) ∧
        ¬ (OverflowTrapEnabled plain ∧ plain.someOverflow (.ucvtfHMergeS 0 0 1))) ∧
      MayExecute (.ucvtfHZeroS 0 0 1) plain ∧ ¬ (InexactTrapEnabled plain ∧ plain.someInexact (.ucvtfHZeroS 0 0 1)) ∧
        ¬ (OverflowTrapEnabled plain ∧ plain.someOverflow (.ucvtfHZeroS 0 0 1)) :=
  ⟨plain_may_execute _, plain_may_execute _⟩

theorem witness_HalfFromDoublewordResult :
    (MayExecute (.ucvtfHMergeD 0 0 1) plain ∧ ¬ (InexactTrapEnabled plain ∧ plain.someInexact (.ucvtfHMergeD 0 0 1)) ∧
        ¬ (OverflowTrapEnabled plain ∧ plain.someOverflow (.ucvtfHMergeD 0 0 1))) ∧
      MayExecute (.ucvtfHZeroD 0 0 1) plain ∧ ¬ (InexactTrapEnabled plain ∧ plain.someInexact (.ucvtfHZeroD 0 0 1)) ∧
        ¬ (OverflowTrapEnabled plain ∧ plain.someOverflow (.ucvtfHZeroD 0 0 1)) :=
  ⟨plain_may_execute _, plain_may_execute _⟩

theorem witness_SingleFromWordResult :
    (MayExecute (.ucvtfSMergeS 0 0 1) plain ∧ ¬ (InexactTrapEnabled plain ∧ plain.someInexact (.ucvtfSMergeS 0 0 1))) ∧
      MayExecute (.ucvtfSZeroS 0 0 1) plain ∧ ¬ (InexactTrapEnabled plain ∧ plain.someInexact (.ucvtfSZeroS 0 0 1)) :=
  ⟨⟨(plain_may_execute _).1, (plain_may_execute _).2.1⟩, (plain_may_execute _).1, (plain_may_execute _).2.1⟩

theorem witness_SingleFromDoublewordResult :
    (MayExecute (.ucvtfSMergeD 0 0 1) plain ∧ ¬ (InexactTrapEnabled plain ∧ plain.someInexact (.ucvtfSMergeD 0 0 1))) ∧
      MayExecute (.ucvtfSZeroD 0 0 1) plain ∧ ¬ (InexactTrapEnabled plain ∧ plain.someInexact (.ucvtfSZeroD 0 0 1)) :=
  ⟨⟨(plain_may_execute _).1, (plain_may_execute _).2.1⟩, (plain_may_execute _).1, (plain_may_execute _).2.1⟩

theorem witness_DoubleFromDoublewordResult :
    (MayExecute (.ucvtfDMergeD 0 0 1) plain ∧ ¬ (InexactTrapEnabled plain ∧ plain.someInexact (.ucvtfDMergeD 0 0 1))) ∧
      MayExecute (.ucvtfDZeroD 0 0 1) plain ∧ ¬ (InexactTrapEnabled plain ∧ plain.someInexact (.ucvtfDZeroD 0 0 1)) :=
  ⟨⟨(plain_may_execute _).1, (plain_may_execute _).2.1⟩, (plain_may_execute _).1, (plain_may_execute _).2.1⟩

theorem witness_DoubleFromWordResult :
    MayExecute (.ucvtfDMergeS 0 0 1) plain ∧ MayExecute (.ucvtfDZeroS 0 0 1) plain :=
  ⟨(plain_may_execute _).1, (plain_may_execute _).1⟩

/-- `plain` completes, and its last element is active. -/
theorem witness_ActiveElementsConverted :
    (∃ t, exec sMerge plain = .next t) ∧ 3 < plain.cfg.vl / sMerge.elemSize.bits ∧
      plain.isActive sMerge.pg sMerge.elemSize.bits 3 :=
  ⟨next_of_completes (by decide), by decide, by unfold State.isActive; decide⟩

/-- `zeroing` completes with an inactive last element, and either form completes with no active element at all. -/
theorem witness_InactiveElementsKeptOrZeroed :
    ((∃ t, exec sZero zeroing = .next t) ∧ 3 < zeroing.cfg.vl / sZero.elemSize.bits ∧
        ¬ zeroing.isActive sZero.pg sZero.elemSize.bits 3) ∧
      (∃ t, exec (.ucvtfSMergeS 0 1 1) plain = .next t) ∧
        ∀ e < plain.cfg.vl / 32, ¬ plain.isActive 1 32 e :=
  ⟨⟨next_of_completes (by decide), by decide, by unfold State.isActive; decide⟩,
    next_of_completes (by decide), by unfold State.isActive; decide⟩

theorem witness_FrameOfEveryEncoding :
    (∃ t, exec sMerge plain = .next t) ∧ exec sMerge bare = .fault (.undefinedInstruction 0x6595A020) ∧
      exec (.ucvtfHMergeS 0 0 1) trapping = .refused .trappedFP ∧ (1 : ZReg) ≠ sMerge.zd :=
  ⟨next_of_completes (by decide), rfl, rfl, by decide⟩

/-- A completed instruction with an inexact element, and one with an overflow. -/
theorem witness_CumulativeFlags :
    ((∃ t, exec sMerge plain = .next t) ∧ plain.someInexact sMerge) ∧
      (∃ t, exec (.ucvtfHMergeS 0 0 1) plain = .next t) ∧ plain.someOverflow (.ucvtfHMergeS 0 0 1) :=
  ⟨⟨next_of_completes (by decide), 3, by decide, by unfold State.isActive; decide, by decide⟩,
    next_of_completes (by decide), 3, by decide, by unfold State.isActive; decide, by decide⟩

/-- Every bit of FPCR but the four set, in a state that completes, one that faults and one that is refused. -/
theorem witness_FpcrMattersOnlyByRModeAndTraps :
    ((∀ k ∈ [10, 12, 22, 23], (0xFFFFFFFFFF3FEBFF : BitVec 64).getLsbD k = plain.fpcr.getLsbD k) ∧
        ∃ t, exec sMerge plain = .next t) ∧
      exec sMerge bare = .fault (.undefinedInstruction 0x6595A020) ∧
      exec (.ucvtfHMergeS 0 0 1) trapping = .refused .trappedFP :=
  ⟨⟨by decide, next_of_completes (by decide)⟩, rfl, rfl⟩

/-- All predicate bits set agree with `plain`'s on every fourth bit. -/
theorem witness_IgnoredPredicateBits :
    (∀ e < plain.cfg.vl / sMerge.elemSize.bits,
        (0xFFFF : BitVec plain.cfg.pl).getLsbD (e * (sMerge.elemSize.bits / 8)) =
          (plain.readP sMerge.pg).getLsbD (e * (sMerge.elemSize.bits / 8))) ∧
      ∃ t, exec sMerge plain = .next t := ⟨by decide, next_of_completes (by decide)⟩

/-- Both forms, with the upper halves of both source elements changed; the last element is active, and the source
may be the destination. -/
theorem witness_SourceUpperBitsIgnored :
    (∀ e < plain.cfg.vl / 64,
        (0x00000000010000038000000001000000 : BitVec plain.cfg.vl).toNat / 2 ^ (e * 64) % 2 ^ 32 =
          plain.zNat 1 / 2 ^ (e * 64) % 2 ^ 32) ∧
      (∃ t, exec (.ucvtfDMergeS 0 0 1) plain = .next t) ∧ (∃ t, exec (.ucvtfDZeroS 1 0 1) plain = .next t) ∧
      plain.isActive 0 64 1 ∧ (1 : ZReg) ≠ 0 ∧ (Instr.ucvtfDZeroS 1 0 1).merging = false :=
  ⟨by decide, next_of_completes (by decide), next_of_completes (by decide), by unfold State.isActive; decide,
    by decide⟩

/-- A state for each of the four modes. -/
theorem witness_RoundingModeField :
    { plain with fpcr := 0xFFFFFFFFFF3FFFFF }.rounding = .rn ∧ { plain with fpcr := 0x00400000 }.rounding = .rp ∧
      { plain with fpcr := 0x00800000 }.rounding = .rm ∧ { plain with fpcr := 0x00C00000 }.rounding = .rz := by decide

/-- An integer on a tie, in each format, that does not overflow; and the ends of the range. -/
theorem witness_ConversionRoundsCorrectly :
    (0 < 2049 ∧ 2049 < 2 ^ 64 ∧ (ucvt 2049 .h .rn).overflow = false) ∧ (ucvt 65519 .h .rn).overflow = false ∧
      (ucvt 65504 .h .rp).overflow = false ∧ (ucvt 65535 .h .rz).overflow = false ∧
      ((ucvt 4097 .h .rm).overflow = false ∧ (ucvt 4097 .h .rm).bits = 0x6C00) ∧
      (ucvt (2 ^ 64 - 1) .s .rp).overflow = false ∧ (ucvt (2 ^ 64 - 1) .d .rm).overflow = false ∧
      (ucvt 1 .d .rn).overflow = false := by decide

theorem witness_ConversionMonotonic : 0 ≤ 2 ^ 64 - 1 ∧ 2 ^ 64 - 1 < 2 ^ 64 := by decide

/-- The largest integer of each format's exact range. -/
theorem witness_SmallIntegersExact :
    (ucvt 2048 .h .rp).inexact = false ∧ (ucvt 2049 .h .rp).inexact = true ∧
      (ucvt 16777216 .s .rp).inexact = false ∧ (ucvt 16777217 .s .rp).inexact = true ∧
      (ucvt (2 ^ 53) .d .rp).inexact = false ∧ (ucvt (2 ^ 53 + 1) .d .rp).inexact = true := by decide

/-- Both sides of each threshold (L2.1). -/
theorem witness_OverflowExactlyAtThresholds :
    ((ucvt 65519 .h .rn).overflow = false ∧ (ucvt 65520 .h .rn).overflow = true) ∧
      ((ucvt 65504 .h .rp).overflow = false ∧ (ucvt 65505 .h .rp).overflow = true) ∧
      ((ucvt 65535 .h .rm).overflow = false ∧ (ucvt 65536 .h .rm).overflow = true) ∧
      ((ucvt 65535 .h .rz).overflow = false ∧ (ucvt 65536 .h .rz).overflow = true) := by decide

theorem witness_WordToDoubleAlwaysExact : 2 ^ 32 - 1 < 2 ^ 32 := by decide

/-- The largest exponent of each format. -/
theorem witness_PowersOfTwoExact : 15 ≤ bias .h ∧ 127 ≤ bias .s ∧ 1023 ≤ bias .d := by decide

/-- Zero, one, and a result whose exponent field is all ones. -/
theorem witness_ResultsAreNonnegativeNumbers :
    0 < 2 ^ 64 ∧ (0 < 1 ∧ 1 < 2 ^ 64) ∧ 2 ^ 64 - 1 < 2 ^ 64 ∧
      (ucvt (2 ^ 64 - 1) .h .rn).bits.toNat / 2 ^ fracBits .h = 2 ^ expBits .h - 1 := by decide

/-- The last 64-bit element of `plain`'s registers, and the 16-bit and 32-bit elements just below it. -/
theorem witness_MixedWidthView : 1 < plain.cfg.vl / 64 ∧ 3 / 4 ≠ 1 ∧ 1 / 2 ≠ 1 := by decide

theorem witness_LowRegisterViews : (31 : ZReg) ≠ 0 := by decide

theorem witness_StepKeepsInv : Machine.Inv plain ∧ ∃ t, step plain = .next t :=
  ⟨by unfold Machine.Inv; decide, next_of_completes (by decide)⟩

/-- A run of one step that completes; only `Z0` is named. -/
theorem witness_RunKeepsLaunchValues :
    (∃ t, Host.Core.run Sys2Proof.core 1 plain = .next t) ∧
      ∀ j < 1, ∀ w i, plain.text.readWord (plain.pc + BitVec.ofNat 64 (4 * j)) = some w → decodeWord w = .ok i →
        i.zd ≠ 1 := by
  obtain ⟨t, ht⟩ := next_of_completes (o := step plain) (by decide)
  refine ⟨⟨t, (run_succ_next 0 plain t).2 ⟨t, ht, rfl⟩⟩, ?_⟩
  intro j hj w i hw hi
  obtain rfl : j = 0 := by omega
  obtain rfl : 0x6595A020 = w := Option.some.inj hw
  obtain rfl : sMerge = i := Except.ok.inj ((by decide : Except.ok sMerge = decodeWord 0x6595A020).trans hi)
  decide

theorem witness_RunIsStraightLine : ∃ t, Host.Core.run Sys2Proof.core 1 plain = .next t :=
  witness_RunKeepsLaunchValues.1

theorem witness_RunBoundedByText :
    plain.text.wf ∧ ∃ t, Host.Core.run Sys2Proof.core 1 plain = .next t :=
  ⟨by decide, witness_RunKeepsLaunchValues.1⟩

/-- A merging and a zeroing word without their pair, each with the other pair; then each with one of its own alone, at
an access check that traps. The latch is empty in all of them. -/
theorem witness_FeatureGateOfWords :
    (let s := start { Config.default with featSve := false, featSme := false } [] [] 0x6553A000
     s.outcome = .running ∧ s.pc ≠ s.cfg.endPc ∧ s.fetch = some 0x6553A000 ∧ s.latch = none ∧
      s.cfg.featSve = false ∧ s.cfg.featSme = false ∧ step s = .fault (.undefinedInstruction 0x6553A000)) ∧
    (let s := start { Config.default with featSve2p2 := false, featSme2p2 := false } [] [] 0x64DDFFFF
     s.outcome = .running ∧ s.pc ≠ s.cfg.endPc ∧ s.fetch = some 0x64DDFFFF ∧ s.latch = none ∧
      s.cfg.featSve2p2 = false ∧ s.cfg.featSme2p2 = false ∧ step s = .fault (.undefinedInstruction 0x64DDFFFF)) ∧
    (let s := start { Config.default with featSve := false, sveAccess := .trapped 5 } [] [] 0x65D7BFFF
     s.fetch = some 0x65D7BFFF ∧ s.latch = none ∧ s.cfg.featSme = true ∧ s.cfg.sveAccess ≠ .undefined ∧
      step s = .fault (.sveAccess 5)) ∧
    (let s := start { Config.default with featSme2p2 := false, sveAccess := .trapped 5 } [] [] 0x645CE000
     s.fetch = some 0x645CE000 ∧ s.latch = none ∧ s.cfg.featSve2p2 = true ∧ s.cfg.sveAccess ≠ .undefined ∧
      step s = .fault (.sveAccess 5)) :=
  ⟨⟨rfl, by decide, by decide, rfl, rfl, rfl, rfl⟩, ⟨rfl, by decide, by decide, rfl, rfl, rfl, rfl⟩,
    ⟨by decide, rfl, rfl, by decide, rfl⟩, by decide, rfl, rfl, by decide, rfl⟩

/-- `plain` completes, and its last element is active with the top bit of its source set. -/
theorem witness_SourceIntegerIsUnsigned :
    (∃ t, exec sMerge plain = .next t) ∧ 3 < plain.cfg.vl / sMerge.elemSize.bits ∧
      plain.isActive sMerge.pg sMerge.elemSize.bits 3 ∧ (elemGet (plain.readZ sMerge.zn) 3 32).getLsbD 31 = true :=
  ⟨next_of_completes (by decide), by decide, by unfold State.isActive; decide, by decide⟩

end Sys2Proof.Tests
end

