-- ==== Sys2Proof/Proofs/State.lean ====
section
/-! The family 10_state.md: what an instruction answers as one relation, registers and their views, the launch state
and the invariant, and what a run is. -/

namespace Sys2Proof.Machine

/-! ## What an instruction answers -/

/-- An enabled floating-point exception arises in an active element (R70); `trapsFP_iff` ties it to the machine's
test. -/
def EnabledTrapArises (i : Instr) (s : State) : Prop :=
  (InexactTrapEnabled s ∧ s.someInexact i) ∨ (OverflowTrapEnabled s ∧ s.someOverflow i)

/-- What instruction `i` answers in `s`: one constructor for each of its ends, with the tests of R76 that lead to it
as the statements name them. `exec_eq_iff` ties it to `exec`. -/
inductive Answers (i : Instr) (s : State) : Answer → Prop where
  | latch (hl : ¬ LatchAllows i s) : Answers i s (.refused .movprfxUnpredictable)
  | noFeature (hl : LatchAllows i s) (hf : ¬ FeaturePresent i s) :
      Answers i s (.fault (.undefinedInstruction (encode i)))
  | accessUndefined (hl : LatchAllows i s) (hf : FeaturePresent i s) (ha : s.cfg.sveAccess = .undefined) :
      Answers i s (.fault (.undefinedInstruction (encode i)))
  | accessTrapped (info : Nat) (hl : LatchAllows i s) (hf : FeaturePresent i s)
      (ha : s.cfg.sveAccess = .trapped info) : Answers i s (.fault (.sveAccess info))
  | fpTrap (hl : LatchAllows i s) (hf : FeaturePresent i s) (ha : s.cfg.sveAccess = .allowed)
      (ht : EnabledTrapArises i s) : Answers i s (.refused .trappedFP)
  | pcWrap (hl : LatchAllows i s) (hf : FeaturePresent i s) (ha : s.cfg.sveAccess = .allowed)
      (ht : ¬ EnabledTrapArises i s) (hp : ¬ s.pc.toNat + 4 < 2 ^ 64) : Answers i s (.refused .pcWrap)
  | next (hl : LatchAllows i s) (hf : FeaturePresent i s) (ha : s.cfg.sveAccess = .allowed)
      (ht : ¬ EnabledTrapArises i s) (hp : s.pc.toNat + 4 < 2 ^ 64) :
      Answers i s (.next (s.retire i.zd (convertVector (constantsOf i) i.zd i.pg i.zn s)))

/-- The answer of `exec` is one the relation allows. -/
theorem answers_exec (i : Instr) (s : State) : Answers i s (exec i s) := by
  have h := ucvtf_cases (constantsOf i) (encode i) i.zd i.pg i.zn s
  simp only [← exec_eq_ucvtf, ← Bool.not_eq_true, latchAdmits_iff, trapsFP_iff,
    show (constantsOf i).merging = i.merging from rfl, implemented_iff] at h
  rcases h with ⟨hl, h⟩ | ⟨hl, ⟨hf, h⟩ | ⟨hf, ⟨ha, h⟩ | ⟨info, ha, h⟩ |
    ⟨ha, ⟨ht, h⟩ | ⟨ht, ⟨hp, h⟩ | ⟨hp, h⟩⟩⟩⟩⟩ <;> rw [h]
  · exact .latch hl
  · exact .noFeature hl hf
  · exact .accessUndefined hl hf ha
  · exact .accessTrapped info hl hf ha
  · exact .fpTrap hl hf ha ht
  · exact .next hl hf ha ht hp
  · exact .pcWrap hl hf ha ht hp

/-- An answer the relation allows is the one `exec` gives: the tests exclude each other. -/
theorem exec_eq_of_answers {i : Instr} {s : State} {a : Answer} (h : Answers i s a) : exec i s = a := by
  have hL := latchAdmits_iff i s
  have hF : implemented s.cfg (constantsOf i).merging = true ↔ FeaturePresent i s := implemented_iff i s
  have hT : _ ↔ EnabledTrapArises i s := trapsFP_iff i s
  rw [exec_eq_ucvtf, ucvtf]
  cases h with
  | latch hl => exact if_neg (hL.not.2 hl)
  | noFeature hl hf => rw [if_pos (hL.2 hl), if_neg (hF.not.2 hf), raise]
  | accessUndefined hl hf ha => simp only [if_pos (hL.2 hl), if_pos (hF.2 hf), ha, raise]
  | accessTrapped info hl hf ha => simp only [if_pos (hL.2 hl), if_pos (hF.2 hf), ha, raise]
  | fpTrap hl hf ha ht => simp only [if_pos (hL.2 hl), if_pos (hF.2 hf), ha, if_pos (hT.2 ht), refuse]
  | pcWrap hl hf ha ht hp =>
    simp only [if_pos (hL.2 hl), if_pos (hF.2 hf), ha, if_neg (hT.not.2 ht), complete, if_neg hp, refuse]
  | next hl hf ha ht hp =>
    simp only [if_pos (hL.2 hl), if_pos (hF.2 hf), ha, if_neg (hT.not.2 ht), complete, if_pos hp]

/-- `exec` is the relation. -/
theorem exec_eq_iff (i : Instr) (s : State) (a : Answer) : exec i s = a ↔ Answers i s a :=
  ⟨fun h => h ▸ answers_exec i s, exec_eq_of_answers⟩

/-! ## Registers and their views -/

theorem State.writeZ_readZ_ne (s : State) (d r : ZReg) (v : BitVec s.cfg.vl) (h : r ≠ d) :
    (s.writeZ d v).readZ r = s.readZ r :=
  BitVec.eq_of_toNat_eq (s.writeZ_zNat_ne d r v h)

/-- `zElem` is the number the machine's `elemGet` reads. -/
theorem elemGet_readZ_toNat (s : State) (r : ZReg) (size e : Nat) :
    (elemGet (s.readZ r) e size).toNat = s.zElem r size e :=
  elemGet_toNat _ _ _

section
variable {w : Nat} (v : BitVec w) (e size : Nat)

/-- An element is its two halves side by side. -/
theorem elemGet_halves : elemGet v e (size + size) = elemGet v (2 * e + 1) size ++ elemGet v (2 * e) size := by
  have h := BitVec.extractLsb'_append_extractLsb'_eq_extractLsb' (x := v) (len₁ := size) (len₂ := size)
    (start₁ := 2 * e * size) (start₂ := (2 * e + 1) * size) (by ring)
  unfold elemGet
  rw [h]
  congr 1
  ring

/-- After a write of an element `k` times as wide, its parts read as the parts of the value. -/
theorem elemGet_elemSet_part (k j : Nat) (x : BitVec (k * size)) (hj : j < k) (hfit : e * (k * size) + k * size ≤ w) :
    elemGet (elemSet v e (k * size) x) (k * e + j) size = x.extractLsb' (j * size) size := by
  rw [elemGet_within _ _ _ _ _ hj, elemGet_elemSet_same _ _ _ _ hfit]

/-- A write of an element `k` times as wide leaves every element outside it as it was. -/
theorem elemGet_elemSet_outside (k n : Nat) (x : BitVec (k * size)) (hk : 0 < k) (hn : n / k ≠ e) :
    elemGet (elemSet v e (k * size) x) n size = elemGet v n size := by
  have part (u : BitVec w) := elemGet_within u (n / k) size k (n % k) (Nat.mod_lt n hk)
  rw [Nat.div_add_mod] at part
  rw [part, part, elemGet_elemSet_ne _ _ _ _ _ hn]

end

/-! ## Predicates -/

/-- The state with `P[g]` replaced. No instruction does this; it is how a statement speaks of two predicate values. -/
def State.withP (s : State) (g : PReg) (q : BitVec s.cfg.pl) : State := { s with p := s.p.set g.val q }

section
variable (i : Instr) (s : State) (g : PReg) (q : BitVec s.cfg.pl)

@[simp] theorem State.withP_cfg : (s.withP g q).cfg = s.cfg := rfl
@[simp] theorem State.withP_fpcr : (s.withP g q).fpcr = s.fpcr := rfl
@[simp] theorem State.withP_fpsr : (s.withP g q).fpsr = s.fpsr := rfl
@[simp] theorem State.withP_pc : (s.withP g q).pc = s.pc := rfl
@[simp] theorem State.withP_latch : (s.withP g q).latch = s.latch := rfl
@[simp] theorem State.withP_zNat (r : ZReg) : (s.withP g q).zNat r = s.zNat r := rfl

@[simp] theorem State.withP_readP_same : (s.withP g q).readP g = q := by
  simp [State.withP, State.readP, Vector.get_eq_getElem]

@[simp] theorem latchAllows_withP : LatchAllows i (s.withP g q) ↔ LatchAllows i s := by
  rw [LatchAllows, State.withP_latch, LatchAllows]

@[simp] theorem featurePresent_withP : FeaturePresent i (s.withP g q) ↔ FeaturePresent i s := by
  rw [FeaturePresent, State.withP_cfg, FeaturePresent]

@[simp] theorem inexactTrapEnabled_withP : InexactTrapEnabled (s.withP g q) ↔ InexactTrapEnabled s := by
  rw [InexactTrapEnabled, State.withP_cfg, State.withP_fpcr, InexactTrapEnabled]

@[simp] theorem overflowTrapEnabled_withP : OverflowTrapEnabled (s.withP g q) ↔ OverflowTrapEnabled s := by
  rw [OverflowTrapEnabled, State.withP_cfg, State.withP_fpcr, OverflowTrapEnabled]

end

/-- The loop of R39 looks at no predicate bit but the lowest of each element's group (R15). -/
theorem convertElements_congr_mask (c : DecodeConstants) (rmode : RMode) {w p : Nat} {mask mask' : BitVec p}
    (operand init : BitVec w) (count : Nat)
    (h : ∀ e < count, active mask e c.esize.bits = active mask' e c.esize.bits) :
    convertElements c rmode mask operand init count = convertElements c rmode mask' operand init count := by
  induction count with
  | zero => rfl
  | succ n ih =>
    simp only [convertElements, convertElement, h n n.lt_succ_self, ih fun e he => h e (he.trans n.lt_succ_self)]

theorem anyActive_congr {p : Nat} {mask mask' : BitVec p} {esize elements : Nat}
    (h : ∀ e < elements, active mask e esize = active mask' e esize) :
    anyActive mask esize elements = anyActive mask' esize elements := by
  rw [Bool.eq_iff_iff, anyActive_iff, anyActive_iff]
  exact exists_congr fun e => and_congr_right fun he => by rw [h e he]

/-- The Operation computes the same vector and flags from a predicate value that makes the same elements active. -/
theorem convertVector_withP (c : DecodeConstants) (zd : ZReg) (pg : PReg) (zn : ZReg) (s : State)
    (q : BitVec s.cfg.pl)
    (hq : ∀ e < s.elements c.esize.bits, active q e c.esize.bits = active (s.readP pg) e c.esize.bits) :
    convertVector c zd pg zn (s.withP pg q) = convertVector c zd pg zn s := by
  have hmask (mask : BitVec s.cfg.pl)
      (h : ∀ e < s.elements c.esize.bits, active mask e c.esize.bits = active (s.readP pg) e c.esize.bits) :
      convertElements c s.rounding mask
        (if anyActive mask c.esize.bits (s.elements c.esize.bits) then s.readZ zn else 0)
        (if c.merging then s.readZ zd else 0) (s.elements c.esize.bits) = convertVector c zd pg zn s := by
    rw [convertVector_eq, anyActive_congr h]
    exact convertElements_congr_mask _ _ _ _ _ h
  exact hmask ((s.withP pg q).readP pg) fun e he =>
    (congrArg (active · e c.esize.bits) (s.withP_readP_same pg q)).trans (hq e he)

section
variable {i : Instr} {s : State} {q : BitVec s.cfg.pl}
  (hq : ∀ e < s.cfg.vl / i.elemSize.bits, active q e i.elemSize.bits = active (s.readP i.pg) e i.elemSize.bits)
include hq

theorem someInexact_withP : (s.withP i.pg q).someInexact i ↔ s.someInexact i := by
  rw [← convertVector_inexact, ← convertVector_inexact, convertVector_withP (constantsOf i) i.zd i.pg i.zn s q hq]

theorem someOverflow_withP : (s.withP i.pg q).someOverflow i ↔ s.someOverflow i := by
  rw [← convertVector_overflow, ← convertVector_overflow, convertVector_withP (constantsOf i) i.zd i.pg i.zn s q hq]

theorem enabledTrapArises_withP : EnabledTrapArises i (s.withP i.pg q) ↔ EnabledTrapArises i s := by
  rw [EnabledTrapArises, someInexact_withP hq, someOverflow_withP hq, inexactTrapEnabled_withP,
    overflowTrapEnabled_withP, EnabledTrapArises]

/-- A stop is the same stop under such a predicate value. -/
theorem Answers.withP_of_stop {a : Answer} (h : Answers i s a) (hstop : ∀ t, a ≠ .next t) :
    Answers i (s.withP i.pg q) a := by
  have latch := latchAllows_withP i s i.pg q
  have feature := featurePresent_withP i s i.pg q
  have trap := enabledTrapArises_withP hq
  cases h with
  | latch hl => exact .latch (latch.not.2 hl)
  | noFeature hl hf => exact .noFeature (latch.2 hl) (feature.not.2 hf)
  | accessUndefined hl hf ha => exact .accessUndefined (latch.2 hl) (feature.2 hf) ha
  | accessTrapped info hl hf ha => exact .accessTrapped info (latch.2 hl) (feature.2 hf) ha
  | fpTrap hl hf ha ht => exact .fpTrap (latch.2 hl) (feature.2 hf) ha (trap.2 ht)
  | pcWrap hl hf ha ht hp => exact .pcWrap (latch.2 hl) (feature.2 hf) ha (trap.not.2 ht) hp
  | next => exact absurd rfl (hstop _)

/-- Completion writes the same Z registers under such a predicate value. -/
theorem retire_withP_zNat (r : ZReg) :
    ((s.withP i.pg q).retire i.zd (convertVector (constantsOf i) i.zd i.pg i.zn (s.withP i.pg q))).zNat r =
      (s.retire i.zd (convertVector (constantsOf i) i.zd i.pg i.zn s)).zNat r := by
  by_cases hr : r = i.zd
  · rw [hr, State.retire_zNat_same, State.retire_zNat_same]
    exact congrArg (·.result.toNat) (convertVector_withP (constantsOf i) i.zd i.pg i.zn s q hq)
  · rw [State.retire_zNat_ne _ _ _ _ hr, State.retire_zNat_ne _ _ _ _ hr, State.withP_zNat]

/-- Completion writes the same FPSR under such a predicate value. -/
theorem retire_withP_fpsr :
    ((s.withP i.pg q).retire i.zd (convertVector (constantsOf i) i.zd i.pg i.zn (s.withP i.pg q))).fpsr =
      (s.retire i.zd (convertVector (constantsOf i) i.zd i.pg i.zn s)).fpsr :=
  congrArg (fun a : Accumulated s.cfg.vl => accumulate s.fpsr a.inexact a.overflow)
    (convertVector_withP (constantsOf i) i.zd i.pg i.zn s q hq)

end

/-! ## Steps and runs -/

/-- A completed step runs the instruction at the `pc`, advances the `pc` by 4 without wrapping and leaves the text. -/
theorem step_next_fetch (s t : State) (h : step s = .next t) :
    ∃ w i, s.text.readWord s.pc = some w ∧ decodeWord w = .ok i ∧ step s = exec i s ∧ t.text = s.text ∧
      t.pc = s.pc + 4 ∧ t.pc.toNat = s.pc.toNat + 4 := by
  obtain ⟨w, i, -, -, hw, hi, he⟩ := step_next s t h
  obtain ⟨-, -, htext, -, -, hpc, hwrap, -, -⟩ := exec_next_fields i s t he
  refine ⟨w, i, hw, hi, h.trans he.symm, htext, hpc, ?_⟩
  rw [hpc]
  bv_omega

/-- A run that begins with a completed step goes on as the run from the state after it. -/
theorem run_succ_of_step (k : Nat) (s u : State) (h : step s = .next u) :
    Host.Core.run Sys2Proof.core (k + 1) s = Host.Core.run Sys2Proof.core k u := by
  have hrun := run_succ Sys2Proof.core k s
  rwa [show Sys2Proof.core.step s = .next u from h] at hrun

/-! ## The obligations -/

/-- Settles O46: a completed step writes neither `outcome`, the text, FPCR nor the run parameters, empties the latch
and adds 4 to the `pc` without wrapping. -/
theorem stepKeepsInv : Obligations.StepKeepsInv := by
  intro s t ⟨hrun, hpc, _, htext, htraps⟩ h
  obtain ⟨w, i, -, -, hexec, -, -, hadd⟩ := step_next_fetch s t h
  obtain ⟨hcfg, hfpcr, htext', hout, hlatch, -⟩ := exec_next_fields i s t (hexec.symm.trans h)
  refine ⟨hout.trans hrun, by omega, hlatch, htext' ▸ htext, ?_⟩
  rwa [hcfg, hfpcr]

/-- Settles O15: an enabled trap asks for trapped exceptions to be supported. -/
theorem notSupportedNeverTraps : Obligations.NotSupportedNeverTraps := by
  intro i s hs h
  cases (exec_eq_iff i s _).1 h with
  | fpTrap _ _ _ ht =>
    obtain ⟨⟨hsup, -⟩, -⟩ | ⟨⟨hsup, -⟩, -⟩ := ht <;> exact absurd (hs.symm.trans hsup) (by decide)

/-- Settles O16: past the other tests, the relation's end for a `pc` that would wrap. -/
theorem pcWrapRefused : Obligations.PcWrapRefused := by
  intro i s hl hf ha hx ho hp
  exact exec_eq_of_answers (.pcWrap hl hf ha (not_or.2 ⟨hx, ho⟩) (by omega))

/-- Settles O17, end by end of the relation that `exec` is. -/
theorem everyStopIsListed : Obligations.EveryStopIsListed := by
  intro i s
  constructor <;> intro r h
  · cases (exec_eq_iff i s _).1 h with
    | noFeature _ hf => exact .inl ⟨rfl, .inl hf⟩
    | accessUndefined _ _ ha => exact .inl ⟨rfl, .inr ha⟩
    | accessTrapped info _ _ ha => exact .inr ⟨info, rfl, ha⟩
  · cases (exec_eq_iff i s _).1 h with
    | latch hl => exact .inl ⟨rfl, hl⟩
    | fpTrap _ _ _ ht => exact .inr (.inl ⟨rfl, ht⟩)
    | pcWrap _ _ _ _ hp => exact .inr (.inr ⟨rfl, by omega⟩)

/-- Settles O42: a 64-bit element is written whole, and 16-bit and 32-bit elements are parts of one 64-bit element. -/
theorem mixedWidthView : Obligations.MixedWidthView := by
  refine ⟨fun s r e x he => ?_, fun s r e => ⟨elemGet_halves _ e 32, ?_⟩, elemGet_readZ_toNat⟩
  · have hfit : e * 64 + 64 ≤ s.cfg.vl := by omega
    rw [State.writeZ_readZ_same]
    refine ⟨fun j hj => ?_, fun j hj => ?_, fun n hn => ?_, fun n hn => ?_⟩
    · rw [Nat.mul_comm 16]
      exact elemGet_elemSet_part _ e 16 4 j x hj hfit
    · rw [Nat.mul_comm 32]
      exact elemGet_elemSet_part _ e 32 2 j x hj hfit
    · exact elemGet_elemSet_outside _ e 16 4 n x (by decide) hn
    · exact elemGet_elemSet_outside _ e 32 2 n x (by decide) hn
  · rw [elemGet_halves _ e 32, elemGet_halves _ (2 * e + 1) 16, elemGet_halves _ (2 * e) 16,
      show 2 * (2 * e + 1) + 1 = 4 * e + 3 by omega, show 2 * (2 * e + 1) = 4 * e + 2 by omega,
      show 2 * (2 * e) + 1 = 4 * e + 1 by omega, show 2 * (2 * e) = 4 * e by omega, BitVec.append_assoc',
      BitVec.cast_eq]

/-- Settles O48, by induction on the number of steps, taking the first step off. -/
theorem runIsStraightLine : Obligations.RunIsStraightLine := by
  intro k
  induction k with
  | zero =>
    intro s t h
    obtain rfl := (run_zero_next s t).1 h
    exact ⟨rfl, fun j hj => absurd hj j.not_lt_zero⟩
  | succ k ih =>
    intro s t h
    obtain ⟨v, hv, ht⟩ := (run_succ_next k s t).1 h
    obtain ⟨w, i, hw, hi, he, htext, hpc, hadd⟩ := step_next_fetch s v hv
    obtain ⟨hend, hsteps⟩ := ih v t ht
    refine ⟨by omega, fun j hj => ?_⟩
    cases j with
    | zero =>
      refine ⟨s, w, i, rfl, ?_, hi, (run_snoc 0 s s rfl).trans he⟩
      rw [show s.pc + BitVec.ofNat 64 (4 * 0) = s.pc by simp, hw]
    | succ j =>
      obtain ⟨u, w', i', hu, hw', hi', he'⟩ := hsteps j (by omega)
      refine ⟨u, w', i', (run_succ_of_step j s v hv).trans hu, ?_, hi', (run_succ_of_step (j + 1) s v hv).trans he'⟩
      rw [← hw', htext, hpc]
      congr 1
      bv_omega

/-- Settles O31: no test looks at a predicate but through the flags of the Operation, and the Operation looks at no
predicate bit but the lowest of each element's group. -/
theorem ignoredPredicateBits : Obligations.IgnoredPredicateBits := by
  intro i s q hq
  change (∀ t, _ → ∃ t', exec i (s.withP i.pg q) = .next t' ∧ _) ∧
    (∀ r, _ → exec i (s.withP i.pg q) = .fault r) ∧ (∀ r, _ → exec i (s.withP i.pg q) = .refused r)
  refine ⟨fun t h => ?_, fun r h => ?_, fun r h => ?_⟩
  · obtain ⟨hm, hx, ho, rfl⟩ := (exec_next i s t).1 h
    refine ⟨_, (exec_next i _ _).2 ⟨?_, ?_, ?_, rfl⟩, retire_withP_zNat hq, retire_withP_fpsr hq, ?_⟩
    · simpa only [MayExecute, latchAllows_withP, featurePresent_withP, State.withP_cfg, State.withP_pc] using hm
    · rwa [inexactTrapEnabled_withP, someInexact_withP hq]
    · rwa [overflowTrapEnabled_withP, someOverflow_withP hq]
    · rw [State.retire_pc, State.retire_pc, State.withP_pc]
  · exact exec_eq_of_answers (((exec_eq_iff i s _).1 h).withP_of_stop hq (by simp))
  · exact exec_eq_of_answers (((exec_eq_iff i s _).1 h).withP_of_stop hq (by simp))

/-- Settles O7, by running `step` past its tests. -/
theorem stepRunsDecodedInstruction : Obligations.StepRunsDecodedInstruction := by
  intro s w i hrun hend hw hi
  simp only [step, hrun, if_neg hend, hw, hi]

/-- Settles O43: the narrow names are read from the whole register. -/
theorem lowRegisterViews : Obligations.LowRegisterViews := by
  intro s d r v width
  exact ⟨congrArg (BitVec.setWidth width) (s.writeZ_readZ_same d v),
    fun h => congrArg (BitVec.setWidth width) (s.writeZ_readZ_ne d r v h)⟩

/-- Settles O44: each field of the reset state is as written. -/
theorem resetIsLaunchState : Obligations.ResetIsLaunchState :=
  ⟨rfl, rfl, rfl⟩

/-- Settles O45: a text with no bytes is canonical, and FPCR is zero. -/
theorem resetMeetsInv : Obligations.ResetMeetsInv :=
  ⟨rfl, by decide, rfl, State.reset_text_wf, fun _ => ⟨rfl, rfl⟩⟩

end Sys2Proof.Machine
end

