-- ==== Sys2Proof/Proofs/Memory.lean ====
section
/-! The family 20_memory.md: the decoder after the encoder, the program text, and where there is no step. -/

namespace Sys2Proof

/-! ## The bytes of a word -/

/-- A word is its four bytes, lowest address first (R25). -/
@[simp] theorem wordOfBytes_byteOfWord (w : Word) :
    wordOfBytes (byteOfWord w 0) (byteOfWord w 1) (byteOfWord w 2) (byteOfWord w 3) = w := by
  unfold wordOfBytes byteOfWord
  rw [BitVec.extractLsb'_append_extractLsb'_eq_extractLsb' (by decide),
    BitVec.extractLsb'_append_extractLsb'_eq_extractLsb' (by decide),
    BitVec.extractLsb'_append_extractLsb'_eq_extractLsb' (by decide)]
  exact BitVec.extractLsb'_eq_self

/-- Decoding an instruction's bytes is decoding its word. -/
theorem decode_encodeBytes (i : Instr) : decode (encodeBytes i) = decodeWord (encode i) :=
  congrArg decodeWord (wordOfBytes_byteOfWord (encode i))

/-! ## The decoder after the encoder -/

/-- Well-formed: `Pg` fits in the three bits of its field (R13, R34). -/
theorem Instr.wellFormed_iff (i : Instr) : i.wellFormed = true ↔ i.pg.val < 8 := decide_eq_true_iff

/-- The encoder leaves `Zd` in bits 4:0 (R31, R32). -/
@[simp] theorem fieldZd_encode (i : Instr) : fieldZd (encode i) = i.zd := by
  unfold fieldZd encode operandBits
  rw [BitVec.extractLsb'_append_eq_of_add_le (by decide), BitVec.extractLsb'_append_eq_right]
  simp

/-- The encoder leaves `Zn` in bits 9:5 (R31, R32). -/
@[simp] theorem fieldZn_encode (i : Instr) : fieldZn (encode i) = i.zn := by
  unfold fieldZn encode operandBits
  rw [BitVec.extractLsb'_append_eq_of_add_le (by decide), BitVec.extractLsb'_append_eq_of_le (by decide),
    BitVec.extractLsb'_append_eq_right]
  simp

/-- The encoder leaves `Pg` in bits 12:10, whose three bits hold `P0` to `P7` only (R13, R31, R32). -/
theorem fieldPg_encode (i : Instr) (h : i.wellFormed = true) : fieldPg (encode i) = i.pg := by
  have hlt : i.pg.val < 8 := i.wellFormed_iff.1 h
  unfold fieldPg encode operandBits
  rw [BitVec.extractLsb'_append_eq_of_add_le (by decide), BitVec.extractLsb'_append_eq_of_le (by decide),
    BitVec.extractLsb'_append_eq_of_le (by decide), BitVec.extractLsb'_eq_self]
  ext
  simp [Nat.mod_eq_of_lt hlt]

/-- The table of R33 has the row of each class under the class's `match` value: the values are distinct. -/
theorem matchTable_find (i : Instr) :
    ∃ row, matchTable.find? (fun r => r.key == Laws.EncodeMatch.matchValue i) = some row ∧
      row.instr i.zd i.pg i.zn = i := by
  cases i <;> exact ⟨_, rfl, rfl⟩

/-- A word whose row the table holds decodes to that row's instruction, with the operands in the word's fields (R36). -/
theorem decodeWord_of_find {w : Word} {r : MatchRow}
    (h : matchTable.find? (fun r => r.key == w &&& fixedMask) = some r) :
    decodeWord w = .ok (r.instr (fieldZd w) (fieldPg w) (fieldZn w)) := by
  rw [decodeWord, h]

theorem decodeWord_encode (i : Instr) (h : i.wellFormed = true) : decodeWord (encode i) = .ok i := by
  obtain ⟨row, hfind, hinstr⟩ := matchTable_find i
  have hkey : encode i &&& fixedMask = Laws.EncodeMatch.matchValue i := Laws.EncodeMatch.of_fixedBits i
  rw [decodeWord_of_find (hkey ▸ hfind), fieldZd_encode, fieldPg_encode i h, fieldZn_encode, hinstr]

/-- Settles O1: the fixed bits find the class's row, the fields are the operands, and four bytes are one word. -/
theorem decodeEncodeRoundTrip : Obligations.DecodeEncodeRoundTrip := by
  intro i h
  rw [decode_encodeBytes]
  exact ⟨decodeWord_encode i h, decodeWord_encode i h⟩

end Sys2Proof

namespace Sys2Proof.Machine

/-! ## The program text -/

/-- No word is at a misaligned address (R26). -/
theorem Memory.readWord_misaligned (m : Memory) (a : Addr) (h : a.toNat % 4 ≠ 0) : m.readWord a = none :=
  if_neg h

/-- Nothing is loaded at a misaligned address (R26). -/
theorem Memory.putWord_misaligned (m : Memory) (a : Addr) (w : Word) (h : a.toNat % 4 ≠ 0) : m.putWord a w = m :=
  if_neg h

/-- The word at an address is made of the four bytes from there and of no other. -/
theorem Memory.readWord_congr {m m' : Memory} {a : Addr}
    (h : ∀ k < 4, m.read (a.toNat + k) = m'.read (a.toNat + k)) : m.readWord a = m'.readWord a := by
  have h0 : m.read a.toNat = m'.read a.toNat := h 0 (by decide)
  simp only [Memory.readWord, h0, h 1 (by decide), h 2 (by decide), h 3 (by decide)]

/-- The byte at an offset into a loaded word. -/
theorem Memory.read_putWord_within (m : Memory) {a : Addr} (w : Word) (ha : a.toNat % 4 = 0) {k : Nat} (hk : k < 4) :
    (m.putWord a w).read (a.toNat + k) = some (byteOfWord w k) := by
  rw [Memory.read_putWord m a w _ ha, if_pos (by omega), Nat.add_sub_cancel_left]

/-- A loaded word reads back (R24, R25). -/
theorem Memory.readWord_putWord_same (m : Memory) {a : Addr} (w : Word) (ha : a.toNat % 4 = 0) :
    (m.putWord a w).readWord a = some w := by
  have byte (k : Nat) (hk : k < 4) := m.read_putWord_within w ha hk
  have h0 : (m.putWord a w).read a.toNat = some (byteOfWord w 0) := byte 0 (by decide)
  simp only [Memory.readWord, if_pos ha, h0, byte 1 (by decide), byte 2 (by decide), byte 3 (by decide),
    wordOfBytes_byteOfWord]

/-- A load leaves every other word as it was: two aligned words that are not the same share no byte. -/
theorem Memory.readWord_putWord_ne (m : Memory) {a b : Addr} (w : Word) (hne : b ≠ a) :
    (m.putWord a w).readWord b = m.readWord b := by
  by_cases hb : b.toNat % 4 = 0
  · by_cases ha : a.toNat % 4 = 0
    · have hne' : b.toNat ≠ a.toNat := mt BitVec.eq_of_toNat_eq hne
      refine Memory.readWord_congr fun k hk => ?_
      rw [Memory.read_putWord m a w _ ha, if_neg (by omega)]
    · rw [Memory.putWord_misaligned m a w ha]
  · rw [Memory.readWord_misaligned _ b hb, Memory.readWord_misaligned _ b hb]

/-- Settles O5: the rules of a word read after a load, at the same address and at another. -/
theorem fetchReadsLoadedWord : Obligations.FetchReadsLoadedWord := by
  intro m a b w
  refine ⟨fun ha => ⟨m.readWord_putWord_same w ha, ?_, ?_⟩, m.readWord_putWord_ne w, m.readWord_misaligned b⟩
  · exact m.read_putWord_within w ha (by decide : 0 < 4)
  · exact m.read_putWord_within w ha (by decide : 3 < 4)

/-! ## Where there is no step -/

/-- At `end_pc` the run is over (R90). -/
theorem step_at_endPc {s : State} (hrun : s.outcome = .running) (hend : s.pc = s.cfg.endPc) :
    step s = .refused .runOver := by
  simp only [step, hrun, if_pos hend]

/-- Where the text has no word the agent is stuck (R24). -/
theorem step_outside_text {s : State} (hrun : s.outcome = .running) (hend : s.pc ≠ s.cfg.endPc)
    (hfetch : s.fetch = none) : step s = .refused .stuck := by
  simp only [step, hrun, if_neg hend, hfetch]

/-- Settles O9: `settle` writes nothing for either of the two refusals. -/
theorem noStepAtEndOrOutsideText : Obligations.NoStepAtEndOrOutsideText := by
  intro s
  constructor
  · rintro ⟨hrun, hend⟩
    have hstep := step_at_endPc hrun hend
    exact ⟨hstep, by rw [advance, hstep, State.settle_runOver]⟩
  · rintro ⟨hrun, hend, hfetch⟩
    have hstep := step_outside_text hrun hend hfetch
    exact ⟨hstep, by rw [advance, hstep, State.settle_stuck]⟩

end Sys2Proof.Machine
end

