-- ==== Sys2Proof/Proofs/Encoding.lean ====
section
/-! The family 30_encoding.md: what the decoder answers for every word, the encoder after the decoder, and the feature
gate of an instruction and of a fetched word. -/

namespace Sys2Proof

open Laws.EncodeMatch

/-! ## The fields of a word -/

theorem fieldZd_val (w : Word) : (fieldZd w).val = w.toNat % 32 :=
  BitVec.extractLsb'_toNat 0 5 w

theorem fieldZn_val (w : Word) : (fieldZn w).val = w.toNat / 32 % 32 := by
  rw [fieldZn, BitVec.val_toFin, BitVec.extractLsb'_toNat, Nat.shiftRight_eq_div_pow]

theorem fieldPg_val (w : Word) : (fieldPg w).val = w.toNat / 1024 % 8 := by
  rw [fieldPg, Fin.val_castLE, BitVec.val_toFin, BitVec.extractLsb'_toNat, Nat.shiftRight_eq_div_pow]

/-- The three fields of a word are its low 13 bits (R31, R32). -/
theorem operandBits_fields (w : Word) :
    operandBits (fieldZd w) (fieldPg w) (fieldZn w) = w.extractLsb' 0 13 := by
  have ofNat_toNat {n : Nat} (x : BitVec n) : BitVec.ofNat n x.toNat = x := by simp
  have hpg : BitVec.ofNat 3 (fieldPg w).val = w.extractLsb' 10 3 := ofNat_toNat (w.extractLsb' 10 3)
  have hzn : BitVec.ofNat 5 (fieldZn w).val = w.extractLsb' 5 5 := ofNat_toNat (w.extractLsb' 5 5)
  have hzd : BitVec.ofNat 5 (fieldZd w).val = w.extractLsb' 0 5 := ofNat_toNat (w.extractLsb' 0 5)
  rw [operandBits, hpg, hzn, hzd, BitVec.extractLsb'_append_extractLsb'_eq_extractLsb' (by decide),
    BitVec.extractLsb'_append_extractLsb'_eq_extractLsb' (by decide)]

/-- A word is its 19 fixed bits and its 13 operand bits. -/
theorem fixed_append_operands (w : Word) : (w.extractLsb' 13 19 ++ w.extractLsb' 0 13 : Word) = w := by
  rw [BitVec.extractLsb'_append_extractLsb'_eq_extractLsb' (by decide)]
  exact BitVec.extractLsb'_eq_self

/-- The key of R36 holds a word's fixed bits and no other. -/
theorem extractLsb'_mask (w : Word) : (w &&& fixedMask).extractLsb' 13 19 = w.extractLsb' 13 19 := by
  have hmask : fixedMask.extractLsb' 13 19 = BitVec.allOnes 19 := by decide
  rw [BitVec.extractLsb'_and, hmask, BitVec.and_allOnes]

/-- An instruction's fixed bits are those of its class's `match` value. -/
theorem extractLsb'_matchValue (i : Instr) : (matchValue i).extractLsb' 13 19 = i.fixedBits := by
  rw [← fixedBits_append_zero, BitVec.extractLsb'_append_eq_of_le (by decide)]
  exact BitVec.extractLsb'_eq_self

/-! ## What the decoder answers -/

/-- A row of the table of R33 builds an instruction of the row's own class, with the operands it is given. -/
theorem matchTable_row {r : MatchRow} (h : r ∈ matchTable) (zd : ZReg) (pg : PReg) (zn : ZReg) :
    matchValue (r.instr zd pg zn) = r.key ∧ (r.instr zd pg zn).zd = zd ∧ (r.instr zd pg zn).pg = pg ∧
      (r.instr zd pg zn).zn = zn := by
  unfold matchTable at h
  fin_cases h <;> exact ⟨rfl, rfl, rfl, rfl⟩

/-- A row found under a key is a row of the table with that key. -/
theorem mem_and_key_of_find {r : MatchRow} {key : Word} (h : matchTable.find? (fun r => r.key == key) = some r) :
    r ∈ matchTable ∧ r.key = key :=
  ⟨List.mem_of_find?_eq_some h, by simpa using List.find?_some h⟩

/-- The decoder answers an instruction exactly when the word's key is its class's `match` value and the word's fields
are its operands (R36). -/
theorem decodeWord_eq_ok_iff (w : Word) (i : Instr) :
    decodeWord w = .ok i ↔
      w &&& fixedMask = matchValue i ∧ i.zd = fieldZd w ∧ i.pg = fieldPg w ∧ i.zn = fieldZn w := by
  constructor
  · intro h
    cases hfind : matchTable.find? (fun r => r.key == w &&& fixedMask) with
    | none => rw [decodeWord, hfind] at h; cases h
    | some r =>
      obtain rfl := Except.ok.inj ((decodeWord_of_find hfind).symm.trans h)
      obtain ⟨hr, hkey⟩ := mem_and_key_of_find hfind
      obtain ⟨hvalue, hoperands⟩ := matchTable_row hr (fieldZd w) (fieldPg w) (fieldZn w)
      exact ⟨(hvalue.trans hkey).symm, hoperands⟩
  · rintro ⟨hkey, hzd, hpg, hzn⟩
    obtain ⟨row, hfind, hinstr⟩ := matchTable_find i
    rw [decodeWord_of_find (hkey ▸ hfind), ← hzd, ← hpg, ← hzn, hinstr]

/-- The 14 `match` values of R33. -/
def matchKeys : List Word := matchTable.map MatchRow.key

theorem matchValue_mem_matchKeys (i : Instr) : matchValue i ∈ matchKeys := by
  obtain ⟨row, hfind, -⟩ := matchTable_find i
  obtain ⟨hrow, hkey⟩ := mem_and_key_of_find hfind
  exact List.mem_map.2 ⟨row, hrow, hkey⟩

/-- A word decodes where its key is one of the 14 `match` values (R36). -/
theorem exists_decodeWord_eq_ok {w : Word} (h : w &&& fixedMask ∈ matchKeys) : ∃ i, decodeWord w = .ok i := by
  obtain ⟨r, hr, hkey⟩ := List.mem_map.1 h
  obtain ⟨hvalue, hoperands⟩ := matchTable_row hr (fieldZd w) (fieldPg w) (fieldZn w)
  exact ⟨_, (decodeWord_eq_ok_iff w _).2 ⟨(hvalue.trans hkey).symm, hoperands⟩⟩

/-- Any other word is `NotInScope` (R37). -/
theorem decodeWord_eq_notInScope {w : Word} (h : w &&& fixedMask ∉ matchKeys) :
    decodeWord w = .error (.notInScope w) := by
  have hfind : matchTable.find? (fun r => r.key == w &&& fixedMask) = none :=
    List.find?_eq_none.2 fun r hr hkey => h (eq_of_beq hkey ▸ List.mem_map_of_mem hr)
  rw [decodeWord, hfind]

/-! ## The encoder after the decoder -/

/-- The word of a decoded instruction is the word it was decoded from: the key gives the fixed bits, and the fields
are all the others. -/
theorem encode_of_decodeWord {w : Word} {i : Instr} (h : decodeWord w = .ok i) : encode i = w := by
  obtain ⟨hkey, hzd, hpg, hzn⟩ := (decodeWord_eq_ok_iff w i).1 h
  calc encode i
      = (matchValue i).extractLsb' 13 19 ++ operandBits i.zd i.pg i.zn := by rw [extractLsb'_matchValue, encode]
    _ = (w &&& fixedMask).extractLsb' 13 19 ++ operandBits (fieldZd w) (fieldPg w) (fieldZn w) := by
      rw [hkey, hzd, hpg, hzn]
    _ = w := by rw [extractLsb'_mask, operandBits_fields, fixed_append_operands]

/-- A decoded instruction is well-formed: the field of `Pg` has three bits (R30, R34). -/
theorem wellFormed_of_decodeWord {w : Word} {i : Instr} (h : decodeWord w = .ok i) : i.wellFormed = true := by
  obtain ⟨-, -, hpg, -⟩ := (decodeWord_eq_ok_iff w i).1 h
  rw [Instr.wellFormed_iff, hpg, fieldPg_val]
  exact Nat.mod_lt _ (by decide)

/-! ## The obligations about the decoder -/

/-- Settles O2: a decoded instruction has the word's key and the word's fields. -/
theorem encodeDecodeRoundTrip : Obligations.EncodeDecodeRoundTrip :=
  fun _ _ h => ⟨wellFormed_of_decodeWord h, encode_of_decodeWord h⟩

/-- Settles O3: each row is the characterisation of the decoder at the row's instruction. -/
theorem decodeIsTheMatchTable : Obligations.DecodeIsTheMatchTable := by
  intro w zd pg zn hzd hpg hzn
  replace hzd : zd = fieldZd w := Fin.ext (hzd.trans (fieldZd_val w).symm)
  replace hpg : pg = fieldPg w := Fin.ext (hpg.trans (fieldPg_val w).symm)
  replace hzn : zn = fieldZn w := Fin.ext (hzn.trans (fieldZn_val w).symm)
  have row (i : Instr) (hizd : i.zd = zd) (hipg : i.pg = pg) (hizn : i.zn = zn)
      (hkey : w &&& fixedMask = matchValue i) : decodeWord w = .ok i :=
    (decodeWord_eq_ok_iff w i).2 ⟨hkey, hizd.trans hzd, hipg.trans hpg, hizn.trans hzn⟩
  refine ⟨row (.ucvtfHMergeH zd pg zn) rfl rfl rfl, row (.ucvtfHZeroH zd pg zn) rfl rfl rfl,
    row (.ucvtfHMergeS zd pg zn) rfl rfl rfl, row (.ucvtfHZeroS zd pg zn) rfl rfl rfl,
    row (.ucvtfSMergeS zd pg zn) rfl rfl rfl, row (.ucvtfSZeroS zd pg zn) rfl rfl rfl,
    row (.ucvtfDMergeS zd pg zn) rfl rfl rfl, row (.ucvtfDZeroS zd pg zn) rfl rfl rfl,
    row (.ucvtfHMergeD zd pg zn) rfl rfl rfl, row (.ucvtfHZeroD zd pg zn) rfl rfl rfl,
    row (.ucvtfSMergeD zd pg zn) rfl rfl rfl, row (.ucvtfSZeroD zd pg zn) rfl rfl rfl,
    row (.ucvtfDMergeD zd pg zn) rfl rfl rfl, row (.ucvtfDZeroD zd pg zn) rfl rfl rfl,
    fun i h => ?_, decodeWord_eq_notInScope⟩
  obtain ⟨hkey, hizd, hipg, hizn⟩ := (decodeWord_eq_ok_iff w i).1 h
  have hmem : w &&& fixedMask ∈ matchKeys := hkey ▸ matchValue_mem_matchKeys i
  exact ⟨hmem, hizd.trans hzd.symm, hizn.trans hzn.symm, hipg.trans hpg.symm⟩

/-- Settles O4, by running the decoder on each word. -/
theorem specWordsDecode : Obligations.SpecWordsDecode := by
  unfold Obligations.SpecWordsDecode
  decide

end Sys2Proof

namespace Sys2Proof.Machine

open Laws.EncodeMatch

/-! ## A step of a fetched word -/

/-- A fetched word that is none of the 14 patterns is refused by name (R37). -/
theorem step_notInScope {s : State} {w : Word} (hrun : s.outcome = .running) (hend : s.pc ≠ s.cfg.endPc)
    (hfetch : s.fetch = some w) (h : w &&& fixedMask ∉ matchKeys) : step s = .refused (.notInScope w) := by
  simp only [step, hrun, if_neg hend, hfetch, decodeWord_eq_notInScope h]

/-- Settles O8: the decoder's two answers, and the refusal of a step whose word gets the second. -/
theorem wordsOutOfScopeRefused : Obligations.WordsOutOfScopeRefused := by
  refine ⟨fun w => ⟨fun h => ?_, decodeWord_eq_notInScope⟩, fun s w hrun hend hfetch h => ?_⟩
  · obtain ⟨i, hi⟩ := exists_decodeWord_eq_ok h
    exact ⟨i, hi, wellFormed_of_decodeWord hi, encode_of_decodeWord hi⟩
  · have hstep := step_notInScope hrun hend hfetch h
    exact ⟨hstep, by rw [advance, hstep, State.settle_refused s _ (by simp) (by simp)]⟩

/-! ## The feature gate -/

/-- An instruction that the latch lets through and whose feature pair is absent is UNDEFINED (R35, R77). -/
theorem exec_of_not_implemented {i : Instr} {s : State} (hl : LatchAllows i s)
    (h : implemented s.cfg i.merging = false) : exec i s = .fault (.undefinedInstruction (encode i)) :=
  exec_eq_of_answers (.noFeature hl ((implemented_iff i s).not.1 (Bool.not_eq_true _ ▸ h)))

/-- Past the gate only the access check makes an instruction UNDEFINED (R35, R78). -/
theorem exec_ne_undefinedInstruction {i : Instr} {s : State} (w : Word) (h : implemented s.cfg i.merging = true)
    (ha : s.cfg.sveAccess ≠ .undefined) : exec i s ≠ .fault (.undefinedInstruction w) := by
  intro hexec
  cases (exec_eq_iff i s _).1 hexec with
  | noFeature _ hf => exact hf ((implemented_iff i s).1 h)
  | accessUndefined _ _ ha' => exact ha ha'

/-- Settles O11: the feature pair of either kind of predication is the one `implemented` tests. -/
theorem featureGateUndefined : Obligations.FeatureGateUndefined := by
  refine fun i s hl => ⟨fun hm h1 h2 => ?_, fun hm h1 h2 => ?_⟩
  · exact exec_of_not_implemented hl (by simp [implemented, hm, h1, h2])
  · exact exec_of_not_implemented hl (by simp [implemented, hm, h1, h2])

/-- The `match` values of R33 with merging predication, and those with zeroing predication. -/
def keysOf : Bool → List Word
  | true => [0x6553A000, 0x6555A000, 0x6595A000, 0x65D1A000, 0x6557A000, 0x65D5A000, 0x65D7A000]
  | false => [0x645CE000, 0x645DA000, 0x649DA000, 0x64DCA000, 0x645DE000, 0x64DDA000, 0x64DDE000]

theorem keysOf_subset_matchKeys (merging : Bool) : keysOf merging ⊆ matchKeys := by
  cases merging <;> decide

theorem matchValue_mem_keysOf (i : Instr) (merging : Bool) :
    matchValue i ∈ keysOf merging ↔ i.merging = merging := by
  cases i <;> cases merging <;> simp only [matchValue, Instr.merging] <;> decide

/-- A word of a merging pattern decodes to a merging instruction, one of a zeroing pattern to a zeroing one. -/
theorem exists_decodeWord_of_mem_keysOf {w : Word} {merging : Bool} (h : w &&& fixedMask ∈ keysOf merging) :
    ∃ i, decodeWord w = .ok i ∧ i.merging = merging := by
  obtain ⟨i, hi⟩ := exists_decodeWord_eq_ok (keysOf_subset_matchKeys merging h)
  obtain ⟨hkey, -⟩ := (decodeWord_eq_ok_iff w i).1 hi
  exact ⟨i, hi, (matchValue_mem_keysOf i merging).1 (hkey ▸ h)⟩

/-- The gate of a fetched word that the latch lets through: without its feature pair the word is UNDEFINED and only
`outcome` is written, and with it only the access check can make it so (R35). -/
theorem step_featureGate {s : State} {w : Word} {merging : Bool} (hrun : s.outcome = .running)
    (hend : s.pc ≠ s.cfg.endPc) (hfetch : s.fetch = some w) (hlatch : ∀ i, decodeWord w = .ok i → LatchAllows i s)
    (hkey : w &&& fixedMask ∈ keysOf merging) :
    (implemented s.cfg merging = false → step s = .fault (.undefinedInstruction w) ∧
      advance s = { s with outcome := .fault (.undefinedInstruction w) }) ∧
    (implemented s.cfg merging = true → s.cfg.sveAccess ≠ .undefined →
      step s ≠ .fault (.undefinedInstruction w)) := by
  obtain ⟨i, hi, rfl⟩ := exists_decodeWord_of_mem_keysOf hkey
  have hstep : step s = exec i s := stepRunsDecodedInstruction s w i hrun hend hfetch hi
  refine ⟨fun h => ?_, fun h ha => hstep ▸ exec_ne_undefinedInstruction w h ha⟩
  have hfault : step s = .fault (.undefinedInstruction w) := by
    rw [hstep, exec_of_not_implemented (hlatch i hi) h, encode_of_decodeWord hi]
  exact ⟨hfault, by rw [advance, hfault, State.settle_fault]⟩

/-- Settles O50: the gate of a fetched word, for either kind of pattern. -/
theorem featureGateOfWords : Obligations.FeatureGateOfWords := by
  intro s w hrun hend hfetch hlatch
  refine ⟨fun hkey => ?_, fun hkey => ?_⟩
  · obtain ⟨absent, present⟩ := step_featureGate (merging := true) hrun hend hfetch hlatch hkey
    exact ⟨fun h1 h2 => absent (by simp [implemented, h1, h2]), fun h => present (by simpa [implemented] using h)⟩
  · obtain ⟨absent, present⟩ := step_featureGate (merging := false) hrun hend hfetch hlatch hkey
    exact ⟨fun h1 h2 => absent (by simp [implemented, h1, h2]), fun h => present (by simpa [implemented] using h)⟩

end Sys2Proof.Machine
end

