-- ==== Sys2Proof/Proofs/UcvtfPredicated.lean ====
section
/-! The family 40_ucvtf_predicated.md: the conversions that the classes use, what a completed instruction leaves in
`Z[d]` and FPSR, each class's result, the MOVPRFX latch, and what a run keeps. -/

namespace Sys2Proof.Machine

/-! ## The conversion -/

/-- The bits of +infinity: the exponent field all ones, the fraction zero (R64). -/
def infinityBits (n : ElemSize) : Nat := (2 ^ expBits n - 1) * 2 ^ fracBits n

/-- The all-ones exponent field is one more than twice the bias. -/
theorem infinityBits_eq (n : ElemSize) : infinityBits n = (2 * bias n + 1) * 2 ^ fracBits n := by
  cases n <;> rfl

/-- Infinity's sign bit is 0. -/
theorem infinityBits_lt (n : ElemSize) : infinityBits n < 2 ^ (n.bits - 1) := by
  cases n <;> decide

theorem two_pow_fracBits_lt_infinityBits (n : ElemSize) : 2 ^ fracBits n < infinityBits n := by
  cases n <;> decide

/-- Overflow delivers infinity or the largest finite number, whose bits are just below (R68). -/
theorem overflowBits_eq_or (n : ElemSize) (rmode : RMode) :
    overflowBits n rmode = infinityBits n ∨ overflowBits n rmode + 1 = infinityBits n := by
  have hpos : 0 < infinityBits n := (Nat.two_pow_pos _).trans (two_pow_fracBits_lt_infinityBits n)
  cases rmode with
  | rn | rp => exact .inl rfl
  | rm | rz => exact .inr (Nat.sub_add_cancel hpos)

/-- The packed bits have the exponent of the integer, or are the first with the next exponent. -/
theorem packed_bounds (v : Nat) (n : ElemSize) (rmode : RMode) (hv : 0 < v) :
    (v.log2 + bias n) * 2 ^ fracBits n ≤ packed v n rmode ∧
      packed v n rmode ≤ (v.log2 + bias n + 1) * 2 ^ fracBits n := by
  obtain ⟨-, hhi⟩ := significand_bounds v (fracBits n) rmode hv
  rw [packed, Nat.add_mul _ 1]
  omega

/-- The two ways a nonzero integer converts, with the result's bits as a number: overflow, or its packed bits, which
then stand below infinity's. -/
theorem ucvt_overflow_or_packed (v : Nat) (n : ElemSize) (rmode : RMode) (hv : 0 < v) :
    ((ucvt v n rmode).overflow = true ∧ (ucvt v n rmode).bits.toNat = overflowBits n rmode) ∨
      (packed v n rmode < infinityBits n ∧ (ucvt v n rmode).bits.toNat = packed v n rmode) := by
  have hwidth := (infinityBits_lt n).trans_le (Nat.pow_le_pow_right (by decide) (Nat.sub_le n.bits 1))
  have hover := overflowBits_eq_or n rmode
  rw [ucvt_eq v n rmode hv, ← infinityBits]
  split
  · exact .inl ⟨rfl, by rw [BitVec.toNat_ofNat, Nat.mod_eq_of_lt (by omega)]⟩
  · exact .inr ⟨by omega, by rw [BitVec.toNat_ofNat, Nat.mod_eq_of_lt (by omega)]⟩

/-- A nonzero integer's result lies from the first normal number to infinity, which only overflow gives. -/
theorem ucvt_bits_bounds (v : Nat) (n : ElemSize) (rmode : RMode) (hv : 0 < v) :
    2 ^ fracBits n ≤ (ucvt v n rmode).bits.toNat ∧ (ucvt v n rmode).bits.toNat ≤ infinityBits n ∧
      ((ucvt v n rmode).bits.toNat = infinityBits n → (ucvt v n rmode).overflow = true) := by
  rcases ucvt_overflow_or_packed v n rmode hv with ⟨hover, hbits⟩ | ⟨hlt, hbits⟩
  · have hinf := two_pow_fracBits_lt_infinityBits n
    have hor := overflowBits_eq_or n rmode
    exact ⟨by omega, by omega, fun _ => hover⟩
  · obtain ⟨hlo, -⟩ := packed_bounds v n rmode hv
    have hbias : 1 ≤ bias n := by cases n <;> decide
    have hexp : 2 ^ fracBits n ≤ (v.log2 + bias n) * 2 ^ fracBits n := Nat.le_mul_of_pos_left _ (by omega)
    exact ⟨by omega, by omega, fun h => by omega⟩

/-- With its highest set bit below the bias, an integer's packed bits do not reach infinity's. -/
theorem packed_lt_infinityBits {v : Nat} {n : ElemSize} (rmode : RMode) (hv : 0 < v) (hexp : v.log2 < bias n) :
    packed v n rmode < infinityBits n := by
  obtain ⟨-, hhi⟩ := packed_bounds v n rmode hv
  rw [infinityBits_eq]
  exact hhi.trans_lt (Nat.mul_lt_mul_of_pos_right (by omega) (Nat.two_pow_pos _))

/-- With its highest set bit below the bias, a nonzero integer converts to its packed bits. -/
theorem ucvt_eq_packed {v : Nat} {n : ElemSize} (rmode : RMode) (hv : 0 < v) (hexp : v.log2 < bias n) :
    ucvt v n rmode =
      { bits := BitVec.ofNat n.bits (packed v n rmode),
        inexact := (significand v v.log2 (fracBits n) rmode).2, overflow := false } :=
  (ucvt_eq v n rmode hv).trans (if_neg (packed_lt_infinityBits rmode hv hexp).not_ge)

/-- A nonzero integer that fits in the significand is shifted up into the fraction, and nothing is signalled. -/
theorem ucvt_of_log2_le_fracBits {v : Nat} {n : ElemSize} (rmode : RMode) (hv : 0 < v) (hfit : v.log2 ≤ fracBits n)
    (hexp : v.log2 < bias n) :
    ucvt v n rmode =
      { bits := BitVec.ofNat n.bits
          ((v.log2 + bias n) * 2 ^ fracBits n + (v * 2 ^ (fracBits n - v.log2) - 2 ^ fracBits n)),
        inexact := false, overflow := false } := by
  rw [ucvt_eq_packed rmode hv hexp, packed, significand_exact _ _ _ _ hfit]

/-- No 64-bit integer overflows single- or double-precision (R68). -/
theorem ucvt_overflow_of_ne_half {v : Nat} {n : ElemSize} (rmode : RMode) (hn : n ≠ .h) (hlt : v < 2 ^ 64) :
    (ucvt v n rmode).overflow = false := by
  rcases v.eq_zero_or_pos with rfl | hv
  · rw [ucvt_zero]
  · have hlog : v.log2 < 64 := (Nat.log2_lt hv.ne').2 hlt
    have hbias : 64 ≤ bias n := by
      cases n with
      | h => contradiction
      | s | d => decide
    rw [ucvt_eq_packed rmode hv (hlog.trans_le hbias)]

/-- Settles O39: a 32-bit integer fits in the 53 bits of a double's significand. -/
theorem wordToDoubleAlwaysExact : Obligations.WordToDoubleAlwaysExact := by
  intro v rmode rmode' hlt
  rcases v.eq_zero_or_pos with rfl | hv
  · simp only [ucvt_zero, and_self]
  · have hlog : v.log2 < 32 := (Nat.log2_lt hv.ne').2 hlt
    have hfit : v.log2 ≤ fracBits .d := by rw [fracBits]; omega
    have hexp : v.log2 < bias .d := by rw [bias]; omega
    rw [ucvt_of_log2_le_fracBits rmode hv hfit hexp, ucvt_of_log2_le_fracBits rmode' hv hfit hexp]
    exact ⟨rfl, rfl, rfl⟩

/-- Settles O41: the result's bits lie between the first normal number's and infinity's. -/
theorem resultsAreNonnegativeNumbers : Obligations.ResultsAreNonnegativeNumbers := by
  intro n rmode v _
  rcases v.eq_zero_or_pos with rfl | hv
  · rw [ucvt_zero]
    cases n <;> decide
  · obtain ⟨hnormal, hle, hinf⟩ := ucvt_bits_bounds v n rmode hv
    refine ⟨hle.trans_lt (infinityBits_lt n), fun h => absurd h hv.ne', fun _ => ?_, fun hexp => ?_⟩
    · exact Nat.div_pos hnormal (Nat.two_pow_pos _)
    · have hge : infinityBits n ≤ (ucvt v n rmode).bits.toNat :=
        (congrArg (· * 2 ^ fracBits n) hexp).ge.trans (Nat.div_mul_le_self _ _)
      have heq := hle.antisymm hge
      exact ⟨by rw [heq, infinityBits, Nat.mul_mod_left], hinf heq⟩

/-! ## What a completed instruction leaves -/

/-- What becomes of an inactive element: the old element of `Z[d]` or zero (R42). -/
def State.inactiveElem (s : State) (i : Instr) (e : Nat) : Nat :=
  if i.merging then s.zElem i.zd i.elemSize.bits e else 0

/-- The predicate bits that one element covers, of which the lowest makes it active (R15). -/
def predicateBits : ElemSize → Nat
  | .h => 2
  | .s => 4
  | .d => 8

theorem predicateBits_eq (n : ElemSize) : predicateBits n = n.bits / 8 := by
  cases n <;> rfl

/-- Every element of `Z[d]` in `t` is what R40 and R42 make of `s` in the given mode. `elementsConverted_of_exec` ties
it to `exec`. -/
def ElementsConverted (i : Instr) (rmode : RMode) (s t : State) : Prop :=
  ∀ e < s.cfg.vl / i.elemSize.bits, t.zElem i.zd i.elemSize.bits e =
    if (s.pNat i.pg).testBit (predicateBits i.elemSize * e) then (ucvt (s.sourceInt i e) i.dstSize rmode).bits.toNat
    else s.inactiveElem i e

/-- A completed instruction leaves every element of its destination as R40 and R42 say, in FPCR's rounding mode. -/
theorem elementsConverted_of_exec {i : Instr} {s t : State} (h : exec i s = .next t) :
    ElementsConverted i s.rounding s t := by
  obtain ⟨-, -, -, rfl⟩ := (exec_next i s t).1 h
  intro e he
  rw [State.zElem, State.retire_zNat_same, convertVector_elem i s e he, Nat.mul_comm e, ← predicateBits_eq]
  rfl

theorem isActive_iff (s : State) (g : PReg) (n : ElemSize) (e : Nat) :
    s.isActive g n.bits e ↔ (s.pNat g).testBit (predicateBits n * e) = true := by
  rw [State.isActive, predicateBits_eq, Nat.mul_comm]

theorem ElementsConverted.of_active {i : Instr} {rmode : RMode} {s t : State} {e : Nat}
    (h : ElementsConverted i rmode s t) (he : e < s.cfg.vl / i.elemSize.bits) (ha : s.isActive i.pg i.elemSize.bits e) :
    t.zElem i.zd i.elemSize.bits e = (ucvt (s.sourceInt i e) i.dstSize rmode).bits.toNat :=
  (h e he).trans (if_pos ((isActive_iff s i.pg i.elemSize e).1 ha))

theorem ElementsConverted.of_inactive {i : Instr} {rmode : RMode} {s t : State} {e : Nat}
    (h : ElementsConverted i rmode s t) (he : e < s.cfg.vl / i.elemSize.bits)
    (ha : ¬ s.isActive i.pg i.elemSize.bits e) : t.zElem i.zd i.elemSize.bits e = s.inactiveElem i e :=
  (h e he).trans (if_neg ((isActive_iff s i.pg i.elemSize e).not.1 ha))

/-- A completed instruction sets IXC and OFC for what arose in an active element, and no other bit (R69). -/
theorem exec_next_fpsr {i : Instr} {s t : State} (h : exec i s = .next t) (k : Nat) :
    t.fpsr.getLsbD k = true ↔
      s.fpsr.getLsbD k = true ∨ (k = 4 ∧ s.someInexact i) ∨ (k = 2 ∧ s.someOverflow i) := by
  obtain ⟨-, -, -, rfl⟩ := (exec_next i s t).1 h
  rw [State.retire_fpsr, accumulate_getLsbD, convertVector_inexact, convertVector_overflow]

/-- Without Overflow in an active element OFC is as before. -/
theorem exec_next_ofc {i : Instr} {s t : State} (h : exec i s = .next t) (ho : ¬ s.someOverflow i) :
    t.fpsr.getLsbD 2 = s.fpsr.getLsbD 2 := by
  rw [Bool.eq_iff_iff, exec_next_fpsr h]
  simp [ho]

/-- Without Inexact and Overflow in an active element FPSR is as before. -/
theorem exec_next_fpsr_eq {i : Instr} {s t : State} (h : exec i s = .next t) (hx : ¬ s.someInexact i)
    (ho : ¬ s.someOverflow i) : t.fpsr = s.fpsr := by
  refine BitVec.eq_of_getLsbD_eq fun k _ => ?_
  rw [Bool.eq_iff_iff, exec_next_fpsr h]
  simp [hx, ho]

/-- Where it may execute and no enabled exception arises, an instruction completes with its elements converted. -/
theorem exec_completes {i : Instr} {s : State} (hm : MayExecute i s)
    (hx : ¬ (InexactTrapEnabled s ∧ s.someInexact i))
    (ho : ¬ (OverflowTrapEnabled s ∧ s.someOverflow i)) :
    ∃ t, exec i s = .next t ∧ ElementsConverted i s.rounding s t :=
  have h := (exec_next i s _).2 ⟨hm, hx, ho, rfl⟩
  ⟨_, h, elementsConverted_of_exec h⟩

/-! ## Classes in which an exception cannot arise -/

theorem sourceInt_lt (s : State) (i : Instr) (e : Nat) : s.sourceInt i e < 2 ^ 64 :=
  (Nat.mod_lt _ (Nat.two_pow_pos _)).trans_le <| Nat.pow_le_pow_right (by decide) <| by
    cases i.srcSize <;> decide

/-- Overflow cannot arise in a class with single- or double-precision results (R68). -/
theorem not_someOverflow {i : Instr} (s : State) (hi : i.dstSize ≠ .h) : ¬ s.someOverflow i := by
  rintro ⟨e, -, -, hover⟩
  rw [State.conversion, ucvt_overflow_of_ne_half _ hi (sourceInt_lt s i e)] at hover
  contradiction

/-- A class with single- or double-precision results needs no condition on Overflow, and leaves OFC. -/
theorem exec_completes_of_ne_half {i : Instr} {s : State} (hi : i.dstSize ≠ .h) (hm : MayExecute i s)
    (hx : ¬ (InexactTrapEnabled s ∧ s.someInexact i)) :
    ∃ t, exec i s = .next t ∧ t.fpsr.getLsbD 2 = s.fpsr.getLsbD 2 ∧ ElementsConverted i s.rounding s t := by
  have ho := not_someOverflow s hi
  obtain ⟨t, h, helem⟩ := exec_completes hm hx (fun h => ho h.2)
  exact ⟨t, h, exec_next_ofc h ho, helem⟩

section
variable {i : Instr} (hsrc : i.srcSize = .s) (hdst : i.dstSize = .d)
include hsrc hdst

/-- 32-bit to double-precision: the conversion is the same in every mode, and signals nothing (R51, R72). -/
theorem ucvt_sourceInt_word_to_double (s : State) (e : Nat) (rmode rmode' : RMode) :
    ucvt (s.sourceInt i e) i.dstSize rmode = ucvt (s.sourceInt i e) i.dstSize rmode' ∧
      (ucvt (s.sourceInt i e) i.dstSize rmode).inexact = false := by
  have hlt : s.sourceInt i e < 2 ^ 32 := by
    rw [State.sourceInt, hsrc]
    exact Nat.mod_lt _ (Nat.two_pow_pos _)
  obtain ⟨heq, hexact, -⟩ := wordToDoubleAlwaysExact _ rmode rmode' hlt
  rw [hdst]
  exact ⟨heq, hexact⟩

/-- 32-bit to double-precision: neither flag can arise, so FPSR is left. -/
theorem no_flags_word_to_double (s : State) : ¬ s.someInexact i ∧ ¬ s.someOverflow i := by
  refine ⟨?_, not_someOverflow s (by rw [hdst]; decide)⟩
  rintro ⟨e, -, -, hinexact⟩
  rw [State.conversion, (ucvt_sourceInt_word_to_double hsrc hdst s e _ .rn).2] at hinexact
  contradiction

/-- 32-bit to double-precision completes wherever it may execute, leaves FPSR, and converts as in any mode. -/
theorem exec_completes_word_to_double {s : State} (rmode : RMode) (hm : MayExecute i s) :
    ∃ t, exec i s = .next t ∧ t.fpsr = s.fpsr ∧ ElementsConverted i rmode s t := by
  obtain ⟨hx, ho⟩ := no_flags_word_to_double hsrc hdst s
  obtain ⟨t, h, helem⟩ := exec_completes hm (fun h => hx h.2) (fun h => ho h.2)
  refine ⟨t, h, exec_next_fpsr_eq h hx ho, fun e he => ?_⟩
  rw [(ucvt_sourceInt_word_to_double hsrc hdst s e rmode s.rounding).1]
  exact helem e he

end

/-! ## The result of each class -/

/-- Settles O19: `ElementsConverted` for the classes of R45 and R46, the even predicate bits. -/
theorem halfFromHalfwordResult : Obligations.HalfFromHalfwordResult := by
  intro zd pg zn s
  exact ⟨exec_completes, exec_completes⟩

/-- Settles O20: `ElementsConverted` for the classes of R47 and R48, every fourth predicate bit. -/
theorem halfFromWordResult : Obligations.HalfFromWordResult := by
  intro zd pg zn s
  exact ⟨exec_completes, exec_completes⟩

/-- Settles O21: `ElementsConverted` for the classes of R49 and R50, whose results are too wide to overflow. -/
theorem singleFromWordResult : Obligations.SingleFromWordResult := by
  intro zd pg zn s
  exact ⟨exec_completes_of_ne_half nofun, exec_completes_of_ne_half nofun⟩

/-- Settles O23: `ElementsConverted` for the classes of R53 and R54, every eighth predicate bit. -/
theorem halfFromDoublewordResult : Obligations.HalfFromDoublewordResult := by
  intro zd pg zn s
  exact ⟨exec_completes, exec_completes⟩

/-- Settles O24: `ElementsConverted` for the classes of R55 and R56, whose results are too wide to overflow. -/
theorem singleFromDoublewordResult : Obligations.SingleFromDoublewordResult := by
  intro zd pg zn s
  exact ⟨exec_completes_of_ne_half nofun, exec_completes_of_ne_half nofun⟩

/-- Settles O25: `ElementsConverted` for the classes of R57 and R58, whose results are too wide to overflow. -/
theorem doubleFromDoublewordResult : Obligations.DoubleFromDoublewordResult := by
  intro zd pg zn s
  exact ⟨exec_completes_of_ne_half nofun, exec_completes_of_ne_half nofun⟩

/-- The low half of a 64-bit element is the source integer that stands in it. -/
theorem zElem_mod_word (s : State) (r : ZReg) (e : Nat) :
    s.zElem r 64 e % 2 ^ 32 = s.zNat r / 2 ^ (e * 64) % 2 ^ 32 :=
  Nat.mod_mod_of_dvd _ (Nat.pow_dvd_pow 2 (by decide))

/-- Settles O22: `ElementsConverted` in any mode for the classes of R51 and R52, which signal nothing. -/
theorem doubleFromWordResult : Obligations.DoubleFromWordResult := by
  intro zd pg zn s rmode
  simp only [zElem_mod_word]
  exact ⟨exec_completes_word_to_double rfl rfl rmode, exec_completes_word_to_double rfl rfl rmode⟩

/-! ## Active and inactive elements -/

/-- Settles O26: an active element of `ElementsConverted`. -/
theorem activeElementsConverted : Obligations.ActiveElementsConverted := by
  intro i s t h e he ha
  have helem := (elementsConverted_of_exec h).of_active he ha
  exact ⟨helem, helem.trans_lt (BitVec.isLt _)⟩

/-- With no active element the loop of R39 leaves the vector it starts from, and no flag. -/
theorem convertElements_of_inactive (c : DecodeConstants) (rmode : RMode) {w p : Nat} (mask : BitVec p)
    (operand init : BitVec w) (count : Nat) (h : ∀ e < count, ¬ active mask e c.esize.bits = true) :
    convertElements c rmode mask operand init count = ⟨init, false, false⟩ := by
  induction count with
  | zero => rfl
  | succ n ih =>
    rw [convertElements, ih fun e he => h e (he.trans n.lt_succ_self), convertElement, if_neg (h n n.lt_succ_self)]

/-- Settles O33: where an element is active the register is read, and where none is the loop does not look at it. -/
theorem sourceReadGatingUnobservable : Obligations.SourceReadGatingUnobservable := by
  intro c zd pg zn s
  rw [convertVector_eq]
  by_cases hany : anyActive (s.readP pg) c.esize.bits (s.elements c.esize.bits) = true
  · rw [if_pos hany, State.elements]
  · have hnone : ∀ e < s.elements c.esize.bits, ¬ active (s.readP pg) e c.esize.bits = true :=
      fun e he ha => hany ((anyActive_iff _ _ _).2 ⟨e, he, ha⟩)
    rw [convertElements_of_inactive _ _ _ _ _ _ hnone, ← State.elements,
      convertElements_of_inactive _ _ _ _ _ _ hnone]

/-- Settles O27: an inactive element of `ElementsConverted`, and the loop with no active element. -/
theorem inactiveElementsKeptOrZeroed : Obligations.InactiveElementsKeptOrZeroed := by
  intro i s t h
  refine ⟨fun e he ha => (elementsConverted_of_exec h).of_inactive he ha, fun hnone => ?_⟩
  · have hx : ¬ s.someInexact i := fun ⟨e, he, ha, _⟩ => hnone e he ha
    have ho : ¬ s.someOverflow i := fun ⟨e, he, ha, _⟩ => hnone e he ha
    refine ⟨?_, exec_next_fpsr_eq h hx ho⟩
    obtain ⟨-, -, -, rfl⟩ := (exec_next i s t).1 h
    have hinit : convertVector (constantsOf i) i.zd i.pg i.zn s =
        ⟨if i.merging then s.readZ i.zd else 0, false, false⟩ :=
      convertElements_of_inactive _ _ _ _ _ _ hnone
    rw [State.retire_zNat_same, hinit]
    cases i.merging with
    | true => rfl
    | false => simp

/-! ## What does not change -/

/-- What R94 says every later state of a run keeps of an earlier one: the run parameters, FPCR, the predicates and the
text; of FPSR all but bits 4 and 2, which are never cleared. -/
structure KeepsLaunchValues (s t : State) : Prop where
  cfg : t.cfg = s.cfg
  fpcr : t.fpcr = s.fpcr
  pNat : ∀ g, t.pNat g = s.pNat g
  text : t.text = s.text
  fpsr_set : ∀ k, s.fpsr.getLsbD k = true → t.fpsr.getLsbD k = true
  fpsr_other : ∀ k, k ≠ 4 → k ≠ 2 → t.fpsr.getLsbD k = s.fpsr.getLsbD k

@[refl] theorem KeepsLaunchValues.refl (s : State) : KeepsLaunchValues s s :=
  ⟨rfl, rfl, fun _ => rfl, rfl, fun _ h => h, fun _ _ _ => rfl⟩

theorem KeepsLaunchValues.trans {s u t : State} (hu : KeepsLaunchValues s u) (ht : KeepsLaunchValues u t) :
    KeepsLaunchValues s t where
  cfg := ht.cfg.trans hu.cfg
  fpcr := ht.fpcr.trans hu.fpcr
  pNat g := (ht.pNat g).trans (hu.pNat g)
  text := ht.text.trans hu.text
  fpsr_set k h := ht.fpsr_set k (hu.fpsr_set k h)
  fpsr_other k h4 h2 := (ht.fpsr_other k h4 h2).trans (hu.fpsr_other k h4 h2)

/-- A completed instruction keeps them (R44). -/
theorem keepsLaunchValues_of_exec {i : Instr} {s t : State} (h : exec i s = .next t) : KeepsLaunchValues s t := by
  obtain ⟨hcfg, hfpcr, htext, -, -, -, -, hp, -⟩ := exec_next_fields i s t h
  refine ⟨hcfg, hfpcr, hp, htext, fun k hk => (exec_next_fpsr h k).2 (.inl hk), fun k h4 h2 => ?_⟩
  rw [Bool.eq_iff_iff, exec_next_fpsr h]
  simp [h4, h2]

/-- The two refusals that write nothing are the step's own: no instruction answers them. -/
theorem exec_refused_ne {i : Instr} {s : State} {r : Refusal} (h : exec i s = .refused r) :
    r ≠ .runOver ∧ r ≠ .stuck := by
  cases (exec_eq_iff i s _).1 h with
  | latch | fpTrap | pcWrap => exact ⟨nofun, nofun⟩

/-- Settles O28: what completion keeps, and what `settle` writes on a stop. -/
theorem frameOfEveryEncoding : Obligations.FrameOfEveryEncoding := by
  intro i s
  refine ⟨fun t h => ?_, fun r h => ?_, fun r h => ?_⟩
  · have hkeep := keepsLaunchValues_of_exec h
    obtain ⟨-, -, -, hout, hlatch, hpc, -, -, hz⟩ := exec_next_fields i s t h
    exact ⟨hz, hkeep.pNat, hkeep.fpcr, hkeep.fpsr_other, hkeep.fpsr_set, hpc, hlatch, hout, hkeep.cfg,
      fun a => by rw [hkeep.text]⟩
  · rw [h, State.settle_fault]
  · obtain ⟨hover, hstuck⟩ := exec_refused_ne h
    rw [h, State.settle_refused s r hover hstuck]

/-! ## The MOVPRFX latch -/

/-- An instruction that the latch lets through does what it does with an empty latch (R61 (b)): only the latch test
reads the latch, and completion empties it. -/
theorem exec_of_latchAllows {i : Instr} {s : State} (h : LatchAllows i s) :
    exec i s = exec i { s with latch := none } := by
  rw [exec_eq_ucvtf, exec_eq_ucvtf, ucvtf, if_pos ((latchAdmits_iff i s).2 h)]
  rfl

/-- Settles O13: a latched MOVPRFX that breaks a condition of R60 fails the latch test, which is the first. -/
theorem movprfxLatchRules : Obligations.MovprfxLatchRules := by
  intro i s
  refine ⟨exec_of_latchAllows, fun m hm hzero => ?_, fun m hm _ hbad => ?_⟩
  · refine exec_eq_of_answers (.latch fun hl => ?_)
    obtain ⟨hmerge, -⟩ := hl m hm
    rw [hmerge] at hzero
    contradiction
  · refine exec_eq_of_answers (.latch fun hl => ?_)
    obtain ⟨-, hzd, hne, hpred⟩ := hl m hm
    rcases hbad with hbad | hbad | ⟨p, hp, hbad⟩
    · exact hbad hzd
    · exact hne hbad
    · obtain ⟨hpg, hesize⟩ := hpred p hp
      exact hbad.elim (· hpg) (· hesize)

/-! ## The upper bits of a narrower source -/

/-- Two states whose elements of a register are equal hold equal registers. -/
theorem zNat_eq_of_zElem {s t : State} {r : ZReg} (n : ElemSize) (hcfg : t.cfg = s.cfg)
    (h : ∀ e < s.cfg.vl / n.bits, t.zElem r n.bits e = s.zElem r n.bits e) : t.zNat r = s.zNat r := by
  have hpos : 0 < n.bits := by cases n <;> decide
  refine Nat.eq_of_testBit_eq fun j => ?_
  by_cases hj : j < s.cfg.vl
  · have he : j / n.bits < s.cfg.vl / n.bits := by
      rw [Nat.div_lt_iff_lt_mul hpos]
      exact hj.trans_eq (elements_mul_bits s n).symm
    have hbit (u : State) : (u.zElem r n.bits (j / n.bits)).testBit (j % n.bits) = (u.zNat r).testBit j := by
      rw [State.zElem, Nat.testBit_mod_two_pow, Nat.testBit_div_two_pow, Nat.mod_add_div']
      simp [Nat.mod_lt j hpos]
    rw [← hbit t, ← hbit s, h _ he]
  · have hhigh (u : State) (hu : u.cfg = s.cfg) : (u.zNat r).testBit j = false :=
      BitVec.getLsbD_of_ge (u.readZ r) j (by rw [hu]; omega)
    rw [hhigh t hcfg, hhigh s rfl]

/-- 32-bit to double-precision sees of its source register only the low half of each element (R40). -/
theorem exec_writeZ_source {i : Instr} {s t : State} (hsrc : i.srcSize = .s) (hdst : i.dstSize = .d)
    (v : BitVec s.cfg.vl)
    (hv : ∀ e < s.cfg.vl / i.elemSize.bits,
      v.toNat / 2 ^ (e * i.elemSize.bits) % 2 ^ i.srcSize.bits = s.sourceInt i e)
    (h : exec i s = .next t) :
    ∃ t', exec i (s.writeZ i.zn v) = .next t' ∧ t'.fpsr = t.fpsr ∧
      (∀ e < s.cfg.vl / i.elemSize.bits, s.isActive i.pg i.elemSize.bits e →
        t'.zElem i.zd i.elemSize.bits e = t.zElem i.zd i.elemSize.bits e) ∧
      (i.zn ≠ i.zd ∨ i.merging = false → t'.zNat i.zd = t.zNat i.zd) := by
  obtain ⟨hm, -⟩ := (exec_next i s t).1 h
  obtain ⟨hx, ho⟩ := no_flags_word_to_double hsrc hdst s
  have helem := elementsConverted_of_exec h
  obtain ⟨t', h', hfpsr', helem'⟩ :=
    exec_completes_word_to_double hsrc hdst s.rounding (show MayExecute i (s.writeZ i.zn v) from hm)
  have hsource (e : Nat) (he : e < s.cfg.vl / i.elemSize.bits) : (s.writeZ i.zn v).sourceInt i e = s.sourceInt i e := by
    rw [State.sourceInt, State.writeZ_zNat_same, hv e he]
  refine ⟨t', h', hfpsr'.trans (exec_next_fpsr_eq h hx ho).symm, fun e he ha => ?_, fun hkept => ?_⟩
  · rw [helem'.of_active he ha, helem.of_active he ha, hsource e he]
  · have hcfg := (keepsLaunchValues_of_exec h).cfg
    have hinactive (e : Nat) : (s.writeZ i.zn v).inactiveElem i e = s.inactiveElem i e := by
      rcases hkept with hne | hzero
      · simp only [State.inactiveElem, State.zElem, State.writeZ_zNat_ne s i.zn i.zd v hne.symm]
      · simp only [State.inactiveElem, hzero, Bool.false_eq_true, if_false]
    refine zNat_eq_of_zElem i.elemSize ((keepsLaunchValues_of_exec h').cfg.trans hcfg.symm) fun e he => ?_
    rw [hcfg] at he
    rw [helem' e he, helem e he, hsource e he, hinactive e]
    rfl

/-- Settles O32, for either form. -/
theorem sourceUpperBitsIgnored : Obligations.SourceUpperBitsIgnored := by
  rintro zd pg zn s t v i (rfl | rfl) hv h
  · exact exec_writeZ_source rfl rfl v hv h
  · exact exec_writeZ_source rfl rfl v hv h

/-! ## Runs -/

theorem keepsLaunchValues_of_step {s t : State} (h : step s = .next t) : KeepsLaunchValues s t := by
  obtain ⟨w, i, -, -, -, -, hexec⟩ := step_next s t h
  exact keepsLaunchValues_of_exec hexec

theorem keepsLaunchValues_of_run {k : Nat} {s t : State} (h : Host.Core.run Sys2Proof.core k s = .next t) :
    KeepsLaunchValues s t := by
  induction k generalizing s with
  | zero =>
    obtain rfl := (run_zero_next s t).1 h
    rfl
  | succ k ih =>
    obtain ⟨u, hu, ht⟩ := (run_succ_next k s t).1 h
    exact (keepsLaunchValues_of_step hu).trans (ih ht)

/-- No instruction among the `k` words from `pc` on names `Z[r]` as its destination. -/
def NotNamed (s : State) (r : ZReg) (k : Nat) : Prop :=
  ∀ j < k, ∀ w i, s.text.readWord (s.pc + BitVec.ofNat 64 (4 * j)) = some w → decodeWord w = .ok i → i.zd ≠ r

/-- What a run of `k + 1` steps passes after its first one is what a run of `k` passes from there. -/
theorem NotNamed.of_step {s u : State} {r : ZReg} {k : Nat} (h : NotNamed s r (k + 1)) (hu : step s = .next u) :
    NotNamed u r k := by
  obtain ⟨-, -, -, -, -, htext, hpc, -⟩ := step_next_fetch s u hu
  intro j hj w i hw
  refine h (j + 1) (by omega) w i (hw ▸ ?_)
  rw [htext, hpc]
  congr 1
  bv_omega

/-- The first of the passed instructions leaves a Z register that none of them names. -/
theorem zNat_of_step {s u : State} {r : ZReg} {k : Nat} (h : NotNamed s r (k + 1)) (hu : step s = .next u) :
    u.zNat r = s.zNat r := by
  obtain ⟨w, i, hw, hi, hexec, -⟩ := step_next_fetch s u hu
  obtain ⟨-, -, -, -, -, -, -, -, hz⟩ := exec_next_fields i s u (hexec.symm.trans hu)
  have hpc : s.pc + BitVec.ofNat 64 (4 * 0) = s.pc := by simp
  exact hz r (h 0 k.succ_pos w i (hpc.symm ▸ hw) hi).symm

theorem zNat_of_run {k : Nat} {s t : State} {r : ZReg} (hr : NotNamed s r k)
    (h : Host.Core.run Sys2Proof.core k s = .next t) : t.zNat r = s.zNat r := by
  induction k generalizing s with
  | zero =>
    obtain rfl := (run_zero_next s t).1 h
    rfl
  | succ k ih =>
    obtain ⟨u, hu, ht⟩ := (run_succ_next k s t).1 h
    exact (ih (hr.of_step hu) ht).trans (zNat_of_step hr hu)

/-- Settles O47: what every step keeps, every run keeps, by induction on the number of steps. -/
theorem runKeepsLaunchValues : Obligations.RunKeepsLaunchValues := by
  intro k s t h
  have hkeep := keepsLaunchValues_of_run h
  exact ⟨hkeep.cfg, hkeep.fpcr, hkeep.pNat, hkeep.text, hkeep.fpsr_set, hkeep.fpsr_other,
    fun r hr => zNat_of_run hr h⟩

end Sys2Proof.Machine
end

section
/-! The family 41_int_to_fp_conversion.md: the rounding mode, what a conversion's result is worth, its order, its
exact cases and its overflow, and what becomes of its flags. -/

namespace Sys2Proof.Machine

/-! ## The rounding mode -/

/-- `FPCR.RMode` is bits 23 and 22 side by side (R17). -/
theorem fpcrRMode_eq (v : BitVec 64) : fpcrRMode v = BitVec.ofBool (v.getLsbD 23) ++ BitVec.ofBool (v.getLsbD 22) := by
  refine BitVec.eq_of_getLsbD_eq fun k hk => ?_
  rw [fpcrRMode, BitVec.getLsbD_extractLsb', BitVec.getLsbD_append]
  interval_cases k <;> simp

/-- Settles O34: the table of R66, read from the two bits; RM and RZ never increment and overflow to the same bits. -/
theorem roundingModeField : Obligations.RoundingModeField := by
  refine ⟨fun s => ?_, fun v n => rfl⟩
  rw [rounding_eq, fpcrRMode_eq]
  refine ⟨fun h23 h22 => ?_, fun h23 h22 => ?_, fun h23 h22 => ?_, fun h23 h22 => ?_⟩ <;> rw [h23, h22] <;> rfl

/-! ## The significand and the discarded bits -/

/-- Where the integer does not fit, the bits shifted out decide whether the bits kept are incremented. -/
theorem significand_of_lt (v : Nat) {k frac : Nat} (rmode : RMode) (h : frac < k) :
    significand v k frac rmode =
      (if roundsUp rmode (v / 2 ^ (k - frac)) (v % 2 ^ (k - frac)) (2 ^ (k - frac - 1)) then v / 2 ^ (k - frac) + 1
        else v / 2 ^ (k - frac), v % 2 ^ (k - frac) != 0) :=
  if_neg h.not_ge

/-- No mode increments when nothing is discarded. -/
theorem roundsUp_zero (rmode : RMode) (m : Nat) {half : Nat} (h : 0 < half) : roundsUp rmode m 0 half = false := by
  cases rmode with
  | rn => simp [roundsUp, h.ne]
  | rp | rm | rz => rfl

theorem ulpOf_pos (n : ElemSize) (v : Nat) : 0 < ulpOf n v :=
  zpow_pos two_pos _

/-- `v` is `m` whole units in its last kept place and `r` of the `2 * half` parts, each worth `t`, that such a unit has;
and its significand in every mode is `m` rounded by what is discarded (R67). `exists_discards` ties it to every `v`. -/
structure Discards (v : Nat) (n : ElemSize) (m r half : Nat) (t : ℚ) : Prop where
  t_pos : 0 < t
  r_lt : r < 2 * half
  value_eq : (v : ℚ) = (2 * half * m + r) * t
  ulpOf_eq : ulpOf n v = 2 * half * t
  significand_eq : ∀ rmode, significand v v.log2 (fracBits n) rmode =
    (if roundsUp rmode m r half then m + 1 else m, r != 0)

/-- Where the integer fits nothing is discarded; where it does not, the parts of a unit are worth one each. -/
theorem exists_discards (v : Nat) (n : ElemSize) : ∃ m r half t, Discards v n m r half t := by
  rcases le_or_gt v.log2 (fracBits n) with hfit | hfit
  · have hulp : (2 : ℚ) ^ (fracBits n - v.log2) * ulpOf n v = 1 := by
      rw [ulpOf, ← zpow_natCast, ← zpow_add₀ two_ne_zero, Nat.cast_sub hfit]
      simp
    refine ⟨v * 2 ^ (fracBits n - v.log2), 0, 1, ulpOf n v / 2, half_pos (ulpOf_pos n v), by decide, ?_, ?_,
      fun rmode => ?_⟩
    · push_cast
      linear_combination (-(v : ℚ)) * hulp
    · push_cast
      ring
    · rw [significand_exact _ _ _ _ hfit, roundsUp_zero _ _ Nat.one_pos]
      rfl
  · have hunit : 2 * 2 ^ (v.log2 - fracBits n - 1) = 2 ^ (v.log2 - fracBits n) := mul_pow_sub_one (by omega) 2
    have hdiv : 2 * 2 ^ (v.log2 - fracBits n - 1) * (v / 2 ^ (v.log2 - fracBits n)) + v % 2 ^ (v.log2 - fracBits n) =
        v := by
      rw [hunit]
      exact Nat.div_add_mod v _
    refine ⟨_, _, _, 1, one_pos, ?_, ?_, ?_, fun rmode => significand_of_lt v rmode hfit⟩
    · rw [hunit]
      exact Nat.mod_lt v (Nat.two_pow_pos _)
    · rw [mul_one]
      exact_mod_cast hdiv.symm
    · rw [ulpOf, ← Nat.cast_sub hfit.le, zpow_natCast, mul_one]
      exact_mod_cast hunit.symm

/-- By how many parts of a unit the rounded significand is above the integer. -/
def errorParts (rmode : RMode) (m r half : Nat) : ℤ :=
  if roundsUp rmode m r half then 2 * half - r else -r

section
variable {m r half : Nat} (h : r < 2 * half)
include h

theorem errorParts_eq_zero_iff (rmode : RMode) : errorParts rmode m r half = 0 ↔ r = 0 := by
  constructor
  · intro he
    unfold errorParts at he
    split at he <;> omega
  · rintro rfl
    rw [errorParts, roundsUp_zero _ _ (by omega)]
    rfl

theorem errorParts_rp : 0 ≤ errorParts .rp m r half ∧ errorParts .rp m r half < 2 * half := by
  rcases r.eq_zero_or_pos with hr | hr
  · rw [(errorParts_eq_zero_iff h .rp).2 hr]
    omega
  · rw [errorParts, if_pos (show roundsUp .rp m r half = true from bne_iff_ne.2 hr.ne')]
    omega

theorem errorParts_down {rmode : RMode} (hmode : rmode = .rm ∨ rmode = .rz) :
    errorParts rmode m r half ≤ 0 ∧ -(2 * half : ℤ) < errorParts rmode m r half := by
  have he : errorParts rmode m r half = -r := by rcases hmode with rfl | rfl <;> rfl
  omega

/-- To nearest the error is at most half a unit, and just that only where the kept bits end up even. -/
theorem errorParts_rn : |errorParts .rn m r half| ≤ half ∧
    (|errorParts .rn m r half| = half → (if roundsUp .rn m r half then m + 1 else m) % 2 = 0) := by
  have hup : roundsUp .rn m r half = true ↔ half < r ∨ r = half ∧ m % 2 = 1 := by simp [roundsUp]
  by_cases hr : half < r ∨ r = half ∧ m % 2 = 1
  · rw [errorParts, if_pos (hup.2 hr), if_pos (hup.2 hr), abs_of_pos (by omega)]
    omega
  · rw [errorParts, if_neg (hup.not.2 hr), if_neg (hup.not.2 hr), abs_neg, Nat.abs_cast]
    omega

end

/-! ## The value of the rounded significand -/

/-- The rounded significand in units of the last kept place of `v` (R67). `fpValue_packed` ties it to the result. -/
def roundedValue (v : Nat) (n : ElemSize) (rmode : RMode) : ℚ :=
  (significand v v.log2 (fracBits n) rmode).1 * ulpOf n v

theorem two_pow_fracBits_mul_ulpOf (n : ElemSize) (v : Nat) : 2 ^ fracBits n * ulpOf n v = 2 ^ v.log2 := by
  rw [ulpOf, ← zpow_natCast, ← zpow_add₀ two_ne_zero, add_sub_cancel, zpow_natCast]

theorem roundedValue_sub {v : Nat} {n : ElemSize} {m r half : Nat} {t : ℚ} (d : Discards v n m r half t)
    (rmode : RMode) : roundedValue v n rmode - v = errorParts rmode m r half * t := by
  rw [roundedValue, d.significand_eq, d.ulpOf_eq, d.value_eq, errorParts]
  split <;> push_cast <;> ring

/-- Inexact says whether the rounded significand is worth something else than the integer. -/
theorem significand_inexact_iff (v : Nat) (n : ElemSize) (rmode : RMode) :
    (significand v v.log2 (fracBits n) rmode).2 = true ↔ roundedValue v n rmode ≠ v := by
  obtain ⟨m, r, half, t, d⟩ := exists_discards v n
  rw [d.significand_eq, bne_iff_ne, ← sub_ne_zero (b := (v : ℚ)), roundedValue_sub d,
    mul_ne_zero_iff_right d.t_pos.ne', Int.cast_ne_zero, not_iff_not, errorParts_eq_zero_iff d.r_lt]

theorem roundedValue_rp (v : Nat) (n : ElemSize) :
    v ≤ roundedValue v n .rp ∧ roundedValue v n .rp < v + ulpOf n v := by
  obtain ⟨m, r, half, t, d⟩ := exists_discards v n
  obtain ⟨hlo, hhi⟩ := errorParts_rp (m := m) d.r_lt
  rw [← sub_nonneg, ← sub_lt_iff_lt_add', roundedValue_sub d, d.ulpOf_eq, mul_lt_mul_iff_left₀ d.t_pos]
  exact ⟨mul_nonneg (by exact_mod_cast hlo) d.t_pos.le, by exact_mod_cast hhi⟩

theorem roundedValue_down (v : Nat) (n : ElemSize) {rmode : RMode} (hmode : rmode = .rm ∨ rmode = .rz) :
    roundedValue v n rmode ≤ v ∧ v < roundedValue v n rmode + ulpOf n v := by
  obtain ⟨m, r, half, t, d⟩ := exists_discards v n
  obtain ⟨hhi, hlo⟩ := errorParts_down (m := m) d.r_lt hmode
  rw [← sub_nonpos, ← neg_lt_sub_iff_lt_add', roundedValue_sub d, d.ulpOf_eq, ← neg_mul,
    mul_lt_mul_iff_left₀ d.t_pos]
  exact ⟨mul_nonpos_of_nonpos_of_nonneg (by exact_mod_cast hhi) d.t_pos.le, by exact_mod_cast hlo⟩

theorem roundedValue_rn (v : Nat) (n : ElemSize) :
    |roundedValue v n .rn - v| ≤ ulpOf n v / 2 ∧
      (|roundedValue v n .rn - v| = ulpOf n v / 2 → (significand v v.log2 (fracBits n) .rn).1 % 2 = 0) := by
  obtain ⟨m, r, half, t, d⟩ := exists_discards v n
  obtain ⟨hle, htie⟩ := errorParts_rn (m := m) d.r_lt
  have hhalf : ulpOf n v / 2 = half * t := by
    rw [d.ulpOf_eq]
    ring
  rw [roundedValue_sub d, abs_mul, abs_of_pos d.t_pos, hhalf, mul_le_mul_iff_left₀ d.t_pos,
    mul_left_inj' d.t_pos.ne', d.significand_eq]
  exact ⟨by exact_mod_cast hle, fun h => htie (by exact_mod_cast h)⟩

/-- A rounded significand keeps its top bit, so it is worth at least the power of two at or under the integer. -/
theorem two_pow_log2_le_roundedValue {v : Nat} (n : ElemSize) (rmode : RMode) (hv : 0 < v) :
    2 ^ v.log2 ≤ roundedValue v n rmode := by
  have hlo : (2 : ℚ) ^ fracBits n ≤ (significand v v.log2 (fracBits n) rmode).1 := by
    exact_mod_cast (significand_bounds v (fracBits n) rmode hv).1
  calc (2 : ℚ) ^ v.log2 = 2 ^ fracBits n * ulpOf n v := (two_pow_fracBits_mul_ulpOf n v).symm
    _ ≤ roundedValue v n rmode := mul_le_mul_of_nonneg_right hlo (ulpOf_pos n v).le

/-! ## The value of the result -/

/-- The value of a number from its exponent, unbiased, and its fraction (R64). -/
theorem fpValue_fields (n : ElemSize) (k : Nat) {f : Nat} (hf : f < 2 ^ fracBits n) :
    fpValue n ((k + bias n) * 2 ^ fracBits n + f) = 2 ^ k * (1 + f / 2 ^ fracBits n) := by
  have hexp : (((k + bias n) * 2 ^ fracBits n + f : Nat) : ℤ) / 2 ^ fracBits n = k + bias n := by
    exact_mod_cast Nat.div_eq_of_lt_le (Nat.le_add_right _ f) (by rw [Nat.succ_mul]; omega)
  have hfrac : ((k + bias n) * 2 ^ fracBits n + f) % 2 ^ fracBits n = f := by
    rw [Nat.mul_add_mod_self_right, Nat.mod_eq_of_lt hf]
  rw [fpValue, hexp, hfrac, add_sub_cancel_right, zpow_natCast]

/-- A carry out of the significand leaves the fraction zero and the exponent one higher. -/
theorem packed_of_carry {v : Nat} {n : ElemSize} {rmode : RMode}
    (hc : (significand v v.log2 (fracBits n) rmode).1 = 2 ^ (fracBits n + 1)) :
    packed v n rmode = (v.log2 + 1 + bias n) * 2 ^ fracBits n := by
  rw [packed, hc, pow_succ, Nat.mul_two, Nat.add_sub_cancel]
  ring

/-- The packed bits are worth the rounded significand, a carry out of it included. -/
theorem fpValue_packed {v : Nat} (n : ElemSize) (rmode : RMode) (hv : 0 < v) :
    fpValue n (packed v n rmode) = roundedValue v n rmode := by
  obtain ⟨hlo, hhi⟩ := significand_bounds v (fracBits n) rmode hv
  have hulp := two_pow_fracBits_mul_ulpOf n v
  rcases hhi.eq_or_lt with hc | hlt
  · rw [packed_of_carry hc, ← Nat.add_zero (_ * _), fpValue_fields n _ (Nat.two_pow_pos _), roundedValue, hc]
    push_cast
    linear_combination (-2) * hulp
  · rw [packed, fpValue_fields n _ (by omega), roundedValue, Nat.cast_sub hlo, ← hulp]
    push_cast
    field_simp
    ring

/-- The last bit of the packed bits is the last bit of the rounded significand. -/
theorem packed_mod_two {v : Nat} (n : ElemSize) (rmode : RMode) (hv : 0 < v) :
    packed v n rmode % 2 = (significand v v.log2 (fracBits n) rmode).1 % 2 := by
  have hlo := (significand_bounds v (fracBits n) rmode hv).1
  have hdvd : 2 ∣ 2 ^ fracBits n := dvd_pow_self 2 (by cases n <;> decide)
  have hdvd' : 2 ∣ (v.log2 + bias n) * 2 ^ fracBits n := hdvd.mul_left _
  rw [packed]
  omega

/-! ## Overflow -/

/-- Zero does not overflow, and a nonzero integer overflows exactly when its packed bits reach infinity's. -/
theorem ucvt_overflow_iff (v : Nat) (n : ElemSize) (rmode : RMode) :
    (ucvt v n rmode).overflow = true ↔ 0 < v ∧ infinityBits n ≤ packed v n rmode := by
  rcases v.eq_zero_or_pos with rfl | hv
  · simp [ucvt_zero]
  · rw [ucvt_eq v n rmode hv, ← infinityBits]
    split <;> simp [*]

/-- What overflow delivers (R68). -/
theorem ucvt_of_overflow {v : Nat} {n : ElemSize} {rmode : RMode} (h : (ucvt v n rmode).overflow = true) :
    ucvt v n rmode = { bits := BitVec.ofNat n.bits (overflowBits n rmode), inexact := true, overflow := true } := by
  obtain ⟨hv, hinf⟩ := (ucvt_overflow_iff v n rmode).1 h
  exact (ucvt_eq v n rmode hv).trans (if_pos hinf)

/-- Without overflow the result is the packed bits, and Inexact what rounding the significand lost. -/
theorem ucvt_of_no_overflow {v : Nat} {n : ElemSize} {rmode : RMode} (hv : 0 < v)
    (h : (ucvt v n rmode).overflow = false) :
    (ucvt v n rmode).bits.toNat = packed v n rmode ∧
      (ucvt v n rmode).inexact = (significand v v.log2 (fracBits n) rmode).2 := by
  have hinf : ¬ infinityBits n ≤ packed v n rmode := fun hle =>
    absurd ((ucvt_overflow_iff v n rmode).2 ⟨hv, hle⟩) (by rw [h]; decide)
  constructor
  · rcases ucvt_overflow_or_packed v n rmode hv with ⟨ho, -⟩ | ⟨-, hbits⟩
    · exact absurd (ho.symm.trans h) (by decide)
    · exact hbits
  · exact congrArg Conversion.inexact ((ucvt_eq v n rmode hv).trans (if_neg hinf))

/-- Settles O35: without overflow the bits are worth the rounded significand, and rounding is right in each mode. -/
theorem conversionRoundsCorrectly : Obligations.ConversionRoundsCorrectly := by
  intro n rmode v hv _ hover
  obtain ⟨hbits, hinexact⟩ := ucvt_of_no_overflow hv hover
  rw [hbits, hinexact, fpValue_packed n rmode hv, packed_mod_two n rmode hv]
  refine ⟨significand_inexact_iff v n rmode, ?_, fun hmode => ?_, ?_⟩
  · rintro rfl
    exact roundedValue_rp v n
  · exact ⟨two_pow_log2_le_roundedValue n rmode hv, roundedValue_down v n hmode⟩
  · rintro rfl
    exact roundedValue_rn v n

/-! ## Exact conversions -/

/-- Where the bits shifted out are zero nothing is lost, in any mode. -/
theorem significand_of_dvd {v frac : Nat} (rmode : RMode) (h : 2 ^ (v.log2 - frac) ∣ v) :
    significand v v.log2 frac rmode = (v * 2 ^ (frac - v.log2) / 2 ^ (v.log2 - frac), false) := by
  rcases le_or_gt v.log2 frac with hfit | hfit
  · rw [significand_exact _ _ _ _ hfit, Nat.sub_eq_zero_of_le hfit, pow_zero, Nat.div_one]
  · rw [significand_of_lt v rmode hfit, Nat.mod_eq_zero_of_dvd h, roundsUp_zero _ _ (Nat.two_pow_pos _),
      Nat.sub_eq_zero_of_le hfit.le, pow_zero, mul_one]
    rfl

/-- The bits shifted out of a power of two are zero. -/
theorem shift_dvd_two_pow (j frac : Nat) : 2 ^ ((2 ^ j).log2 - frac) ∣ 2 ^ j := by
  rw [Nat.log2_two_pow]
  exact Nat.pow_dvd_pow 2 (Nat.sub_le j frac)

/-- Settles O40: the significand of a power of two is its top bit alone. -/
theorem powersOfTwoExact : Obligations.PowersOfTwoExact := by
  intro n rmode j hj
  have hlog : (2 ^ j).log2 = j := Nat.log2_two_pow
  have hsig : significand (2 ^ j) (2 ^ j).log2 (fracBits n) rmode = (2 ^ fracBits n, false) := by
    rw [significand_of_dvd rmode (shift_dvd_two_pow j _), hlog, ← pow_add,
      Nat.pow_div (by omega) two_pos]
    congr 2
    omega
  have hpacked : packed (2 ^ j) n rmode = (j + bias n) * 2 ^ fracBits n := by
    rw [packed, hsig, hlog, Nat.sub_self, Nat.add_zero]
  have hover : (ucvt (2 ^ j) n rmode).overflow = false := by
    rw [Bool.eq_false_iff, Ne, ucvt_overflow_iff, hpacked, infinityBits_eq,
      Nat.mul_le_mul_right_iff (Nat.two_pow_pos _)]
    omega
  obtain ⟨hbits, hinexact⟩ := ucvt_of_no_overflow (Nat.two_pow_pos j) hover
  exact ⟨hbits.trans hpacked, hinexact.trans (congrArg Prod.snd hsig), hover⟩

/-- Settles O37: below the bound the integer fits in the significand, and the bound is a power of two. -/
theorem smallIntegersExact : Obligations.SmallIntegersExact := by
  intro n rmode v hv hle
  have hbound : v ≤ 2 ^ (fracBits n + 1) := by cases n <;> exact hle
  have hdvd : 2 ^ (v.log2 - fracBits n) ∣ v := by
    rcases hbound.eq_or_lt with rfl | hlt
    · exact shift_dvd_two_pow _ _
    · rw [Nat.sub_eq_zero_of_le (Nat.lt_succ_iff.1 ((Nat.log2_lt hv.ne').2 hlt))]
      exact one_dvd v
  have hexp : v.log2 < bias n :=
    have hlt : fracBits n + 1 < bias n := by cases n <;> decide
    (Nat.log2_lt hv.ne').2 (hbound.trans_lt (Nat.pow_lt_pow_right one_lt_two hlt))
  have hover : (ucvt v n rmode).overflow = false := by rw [ucvt_eq_packed rmode hv hexp]
  obtain ⟨hbits, hinexact⟩ := ucvt_of_no_overflow hv hover
  have hexact : (significand v v.log2 (fracBits n) rmode).2 = false := by rw [significand_of_dvd rmode hdvd]
  refine ⟨hinexact.trans hexact, hover, ?_⟩
  rw [hbits, fpValue_packed n rmode hv]
  by_contra hne
  exact absurd ((significand_inexact_iff v n rmode).2 hne) (by rw [hexact]; decide)

/-! ## Monotonicity -/

/-- With the same bits kept, discarding more does not undo an increment. -/
theorem roundsUp_mono {rmode : RMode} {m r r' half : Nat} (hr : r ≤ r') (h : roundsUp rmode m r half = true) :
    roundsUp rmode m r' half = true := by
  cases rmode with
  | rn =>
    simp only [roundsUp, Bool.or_eq_true, Bool.and_eq_true, beq_iff_eq, decide_eq_true_eq] at h ⊢
    omega
  | rp =>
    rw [roundsUp, bne_iff_ne] at h ⊢
    omega
  | rm | rz => contradiction

/-- Kept from the same highest bit on, the rounded significands of two integers are in order. -/
theorem significand_mono {v v' : Nat} (k frac : Nat) (rmode : RMode) (h : v ≤ v') :
    (significand v k frac rmode).1 ≤ (significand v' k frac rmode).1 := by
  rcases le_or_gt k frac with hfit | hfit
  · rw [significand_exact _ _ _ _ hfit, significand_exact _ _ _ _ hfit]
    exact Nat.mul_le_mul_right _ h
  · rw [significand_of_lt v rmode hfit, significand_of_lt v' rmode hfit]
    generalize k - frac = sh
    have hv := Nat.div_add_mod v (2 ^ sh)
    have hv' := Nat.div_add_mod v' (2 ^ sh)
    rcases (Nat.div_le_div_right (c := 2 ^ sh) h).eq_or_lt with hm | hm
    · rw [← hm] at hv' ⊢
      have hup := roundsUp_mono (rmode := rmode) (m := v / 2 ^ sh) (half := 2 ^ (sh - 1))
        (show v % 2 ^ sh ≤ v' % 2 ^ sh by omega)
      by_cases hr : roundsUp rmode (v / 2 ^ sh) (v % 2 ^ sh) (2 ^ (sh - 1)) = true
      · rw [if_pos hr, if_pos (hup hr)]
      · rw [if_neg hr]
        split <;> omega
    · dsimp only
      split <;> split <;> omega

theorem packed_mono {v v' : Nat} (n : ElemSize) (rmode : RMode) (hv : 0 < v) (h : v ≤ v') :
    packed v n rmode ≤ packed v' n rmode := by
  have hlog : v.log2 ≤ v'.log2 := (Nat.le_log2 (by omega)).2 ((Nat.log2_self_le hv.ne').trans h)
  rcases hlog.eq_or_lt with heq | hlt
  · rw [packed, packed, ← heq]
    exact Nat.add_le_add_left (Nat.sub_le_sub_right (significand_mono _ _ rmode h) _) _
  · calc packed v n rmode ≤ (v.log2 + bias n + 1) * 2 ^ fracBits n := (packed_bounds v n rmode hv).2
      _ ≤ (v'.log2 + bias n) * 2 ^ fracBits n := Nat.mul_le_mul_right _ (by omega)
      _ ≤ packed v' n rmode := (packed_bounds v' n rmode (hv.trans_le h)).1

/-- Where an integer overflows, every larger one does. -/
theorem ucvt_overflow_mono {v v' : Nat} {n : ElemSize} {rmode : RMode} (h : v ≤ v')
    (ho : (ucvt v n rmode).overflow = true) : (ucvt v' n rmode).overflow = true := by
  obtain ⟨hv, hinf⟩ := (ucvt_overflow_iff v n rmode).1 ho
  exact (ucvt_overflow_iff v' n rmode).2 ⟨hv.trans_le h, hinf.trans (packed_mono n rmode hv h)⟩

/-- Settles O36: packed bits are in order, and what overflow delivers is above all that do not overflow. -/
theorem conversionMonotonic : Obligations.ConversionMonotonic := by
  intro n rmode v v' h _
  rcases v.eq_zero_or_pos with rfl | hv
  · rw [ucvt_zero]
    exact Nat.zero_le _
  · have hmono := packed_mono n rmode hv h
    have htop := overflowBits_eq_or n rmode
    rcases ucvt_overflow_or_packed v' n rmode (hv.trans_le h) with ⟨-, hbits'⟩ | ⟨hlt', hbits'⟩
    · rcases ucvt_overflow_or_packed v n rmode hv with ⟨-, hbits⟩ | ⟨hlt, hbits⟩ <;> omega
    · rcases ucvt_overflow_or_packed v n rmode hv with ⟨ho, -⟩ | ⟨-, hbits⟩
      · have hinf := ((ucvt_overflow_iff v n rmode).1 ho).2
        omega
      · omega

/-! ## The overflow thresholds -/

/-- Overflow being monotonic, two neighbours of which only the upper overflows are the threshold. -/
theorem overflow_iff_of_neighbours {n : ElemSize} {rmode : RMode} {b : Nat} (hlo : (ucvt b n rmode).overflow = false)
    (hhi : (ucvt (b + 1) n rmode).overflow = true) (v : Nat) : (ucvt v n rmode).overflow = true ↔ b + 1 ≤ v := by
  refine ⟨fun h => ?_, fun h => ucvt_overflow_mono h hhi⟩
  by_contra hv
  exact absurd (ucvt_overflow_mono (show v ≤ b by omega) h) (by rw [hlo]; decide)

/-- Settles O38: each threshold from its two neighbours, and what overflow delivers. -/
theorem overflowExactlyAtThresholds : Obligations.OverflowExactlyAtThresholds := by
  intro v hlt
  refine ⟨overflow_iff_of_neighbours (b := 65519) (by decide) (by decide) v,
    overflow_iff_of_neighbours (b := 65504) (by decide) (by decide) v,
    overflow_iff_of_neighbours (b := 65535) (by decide) (by decide) v,
    overflow_iff_of_neighbours (b := 65535) (by decide) (by decide) v,
    fun rmode => ⟨ucvt_overflow_of_ne_half rmode nofun hlt, ucvt_overflow_of_ne_half rmode nofun hlt⟩,
    fun rmode h => ?_⟩
  rw [ucvt_of_overflow h]
  cases rmode <;> exact ⟨rfl, rfl⟩

/-! ## The cumulative flags and the traps -/

/-- Where some active element overflows, some is inexact (R69). -/
theorem someInexact_of_someOverflow {i : Instr} {s : State} (h : s.someOverflow i) : s.someInexact i := by
  obtain ⟨e, he, ha, ho⟩ := h
  refine ⟨e, he, ha, ?_⟩
  rw [State.conversion, ucvt_of_overflow ho]

/-- Settles O29: completion sets the two bits for what arose, and what overflows is inexact. -/
theorem cumulativeFlags : Obligations.CumulativeFlags :=
  fun _ _ _ h => ⟨exec_next_fpsr h, someInexact_of_someOverflow⟩

/-- Settles O14: of the relation's ends one answers `TrappedFP`, with the condition of R70. -/
theorem trappedExactlyWhenEnabled : Obligations.TrappedExactlyWhenEnabled := by
  intro i s hl hf ha
  refine ⟨fun h => ?_, fun ht => exec_eq_of_answers (.fpTrap hl hf ha ht)⟩
  cases (exec_eq_iff i s _).1 h with
  | fpTrap _ _ _ ht => exact ht

/-! ## FPCR -/

/-- The state with FPCR replaced. No instruction does this; it is how a statement speaks of two values of FPCR. -/
def State.withFpcr (s : State) (v : BitVec 64) : State := { s with fpcr := v }

/-- The answer with FPCR replaced in the next state; a stop has none. -/
def answerWithFpcr (v : BitVec 64) : Answer → Answer
  | .next t => .next (t.withFpcr v)
  | .fault r => .fault r
  | .refused r => .refused r

/-- The values agree on RMode, IXE and OFE (R71). -/
def AgreesOnRModeAndTraps (v u : BitVec 64) : Prop := ∀ k ∈ [10, 12, 22, 23], v.getLsbD k = u.getLsbD k

section
variable {s : State} {v : BitVec 64} (h : AgreesOnRModeAndTraps v s.fpcr)
include h

theorem rounding_withFpcr : (s.withFpcr v).rounding = s.rounding := by
  rw [rounding_eq, rounding_eq, fpcrRMode_eq, fpcrRMode_eq]
  change rmodeOf (BitVec.ofBool (v.getLsbD 23) ++ BitVec.ofBool (v.getLsbD 22)) = _
  rw [h 23 (by decide), h 22 (by decide)]

theorem convertVector_withFpcr (c : DecodeConstants) (zd : ZReg) (pg : PReg) (zn : ZReg) :
    convertVector c zd pg zn (s.withFpcr v) = convertVector c zd pg zn s := by
  rw [convertVector_eq, convertVector_eq, rounding_withFpcr h]
  rfl

theorem enabledTrapArises_withFpcr (i : Instr) : EnabledTrapArises i (s.withFpcr v) ↔ EnabledTrapArises i s := by
  have hx : InexactTrapEnabled (s.withFpcr v) ↔ InexactTrapEnabled s := and_congr_right fun _ => by
    rw [← h 12 (by decide)]
    rfl
  have ho : OverflowTrapEnabled (s.withFpcr v) ↔ OverflowTrapEnabled s := and_congr_right fun _ => by
    rw [← h 10 (by decide)]
    rfl
  rw [EnabledTrapArises, hx, ho, ← convertVector_inexact, ← convertVector_overflow, convertVector_withFpcr h,
    convertVector_inexact, convertVector_overflow, EnabledTrapArises]

/-- Completion writes the same under such a value of FPCR. -/
theorem retire_withFpcr (i : Instr) :
    (s.withFpcr v).retire i.zd (convertVector (constantsOf i) i.zd i.pg i.zn (s.withFpcr v)) =
      (s.retire i.zd (convertVector (constantsOf i) i.zd i.pg i.zn s)).withFpcr v := by
  rw [convertVector_withFpcr h]
  rfl

/-- The relation's ends are the same under such a value of FPCR, but for that value in the next state (R71). -/
theorem Answers.withFpcr {i : Instr} {a : Answer} (ha : Answers i s a) :
    Answers i (s.withFpcr v) (answerWithFpcr v a) := by
  have trap := enabledTrapArises_withFpcr h i
  cases ha with
  | latch hl => exact .latch hl
  | noFeature hl hf => exact .noFeature hl hf
  | accessUndefined hl hf ha => exact .accessUndefined hl hf ha
  | accessTrapped info hl hf ha => exact .accessTrapped info hl hf ha
  | fpTrap hl hf ha ht => exact .fpTrap hl hf ha (trap.2 ht)
  | pcWrap hl hf ha ht hp => exact .pcWrap hl hf ha (trap.not.2 ht) hp
  | next hl hf ha ht hp =>
    rw [answerWithFpcr, ← retire_withFpcr h]
    exact .next hl hf ha (trap.not.2 ht) hp

end

/-- Settles O30: no test and no conversion reads FPCR but through RMode and the two trap enables. -/
theorem fpcrMattersOnlyByRModeAndTraps : Obligations.FpcrMattersOnlyByRModeAndTraps := by
  intro i s v h
  have hexec : exec i (s.withFpcr v) = answerWithFpcr v (exec i s) :=
    exec_eq_of_answers (Answers.withFpcr h (answers_exec i s))
  change (∀ t : State, _ → exec i (s.withFpcr v) = .next (t.withFpcr v)) ∧
    (∀ r, _ → exec i (s.withFpcr v) = .fault r) ∧ (∀ r, _ → exec i (s.withFpcr v) = .refused r)
  refine ⟨fun t ht => ?_, fun r hr => ?_, fun r hr => ?_⟩
  · rw [hexec, ht, answerWithFpcr]
  · rw [hexec, hr, answerWithFpcr]
  · rw [hexec, hr, answerWithFpcr]

/-! ## The source integer -/

/-- The weights of the set bits below `w` add up to the low `w` bits as an unsigned number. -/
theorem sum_weights_eq_mod {size : Nat} (x : BitVec size) (w : Nat) :
    (∑ k ∈ Finset.range w, if x.getLsbD k then 2 ^ k else 0) = x.toNat % 2 ^ w := by
  induction w with
  | zero => simp [Nat.mod_one]
  | succ w ih =>
    rw [Finset.sum_range_succ, ih, Nat.mod_pow_succ, BitVec.getLsbD, Nat.testBit_eq_decide_div_mod_eq]
    rcases Nat.mod_two_eq_zero_or_one (x.toNat / 2 ^ w) with hbit | hbit <;> simp [hbit]

/-- The source integer is the low part of the source element (R65). -/
theorem sourceInt_eq_zElem_mod (s : State) (i : Instr) (e : Nat) :
    s.sourceInt i e = s.zElem i.zn i.elemSize.bits e % 2 ^ i.srcSize.bits :=
  (Nat.mod_mod_of_dvd _ (Nat.pow_dvd_pow 2 (srcSize_le_elemSize i))).symm

/-- Settles O51: the sum of the weights is the source integer. -/
theorem sourceIntegerIsUnsigned : Obligations.SourceIntegerIsUnsigned := by
  intro i s t h e he ha
  rw [sum_weights_eq_mod, elemGet_readZ_toNat, ← sourceInt_eq_zElem_mod]
  exact ⟨Nat.mod_lt _ (Nat.two_pow_pos _), (elementsConverted_of_exec h).of_active he ha⟩

end Sys2Proof.Machine
end

section
/-! The family 60_exceptions.md: what a stop writes and that nothing follows it, the SVE access check, and when an
instruction completes. -/

namespace Sys2Proof.Machine

/-! ## After a stop -/

/-- A stopped state answers no next state (R74). -/
theorem step_ne_next_of_stopped {s : State} (h : s.outcome ≠ .running) (t : State) : step s ≠ .next t := by
  intro hstep
  obtain ⟨w, i, hrunning, -⟩ := step_next s t hstep
  exact h hrunning

theorem step_of_fault {s : State} {r : Fault} (h : s.outcome = .fault r) : step s = .fault r := by
  rw [step, h]

theorem step_of_refused {s : State} {r : Refusal} (h : s.outcome = .refused r) : step s = .refused r := by
  rw [step, h]

/-- Recording a fault that is already recorded writes nothing. -/
theorem State.settle_fault_self {s : State} {r : Fault} (h : s.outcome = .fault r) : s.settle (.fault r) = s := by
  rw [State.settle_fault, ← h]

/-- Recording a refusal that is already recorded writes nothing, nor does either of the two that are never recorded. -/
theorem State.settle_refused_self {s : State} {r : Refusal} (h : s.outcome = .refused r) :
    s.settle (.refused r) = s := by
  by_cases hover : r = .runOver
  · rw [hover, State.settle_runOver]
  by_cases hstuck : r = .stuck
  · rw [hstuck, State.settle_stuck]
  rw [State.settle_refused s r hover hstuck, ← h]

/-- A stopped state answers its own stop again, and recording that writes nothing. -/
theorem advance_of_stopped {s : State} (h : s.outcome ≠ .running) : advance s = s := by
  cases ho : s.outcome with
  | running => exact absurd ho h
  | fault r => rw [advance, step_of_fault ho, State.settle_fault_self ho]
  | refused r => rw [advance, step_of_refused ho, State.settle_refused_self ho]

/-- Settles O10: what a stop writes is the frame's, and a stopped state is a fixed point of `advance`. -/
theorem stopsAreTerminalAndSticky : Obligations.StopsAreTerminalAndSticky := by
  refine ⟨fun i s r h => ?_, fun i s r h => ?_, fun s h => ⟨step_ne_next_of_stopped h, fun k => ?_⟩⟩
  · obtain ⟨-, hfault, -⟩ := frameOfEveryEncoding i s
    exact hfault r h
  · obtain ⟨-, -, hrefused⟩ := frameOfEveryEncoding i s
    exact hrefused r h
  · exact Function.iterate_fixed (advance_of_stopped h) k

/-! ## The tests of an instruction -/

/-- Settles O12: the relation's two ends for an access check that fails. -/
theorem sveAccessCheckStops : Obligations.SveAccessCheckStops := fun _ _ hl hf =>
  ⟨fun ha => exec_eq_of_answers (.accessUndefined hl hf ha),
    fun info ha => exec_eq_of_answers (.accessTrapped info hl hf ha)⟩

/-- Settles O18: where the conditions hold, the next state is the one in which the instruction retires. -/
theorem completesExactlyWhen : Obligations.CompletesExactlyWhen := by
  intro i s
  constructor
  · rintro ⟨t, h⟩
    obtain ⟨hm, hx, ho, -⟩ := (exec_next i s t).1 h
    exact ⟨hm, hx, ho⟩
  · rintro ⟨hm, hx, ho⟩
    exact ⟨_, (exec_next i s _).2 ⟨hm, hx, ho, rfl⟩⟩

end Sys2Proof.Machine
end

namespace Sys2Proof.Machine

/-! The family 70_reset_and_hazards.md: how long a run can be for the text it runs over (R90, R92). -/

/-! ## The addresses that a text lists -/

/-- A byte that reads is a byte the text lists. -/
theorem Memory.mem_addresses_of_read {m : Memory} {a : Nat} (h : (m.read a).isSome) : a ∈ m.map Prod.fst := by
  induction m with
  | nil => exact absurd h (by simp [Memory.read])
  | cons c m ih =>
    by_cases hc : c.1 = a
    · simp [hc]
    · rw [Memory.read, if_neg hc] at h
      exact List.mem_cons_of_mem _ (ih h)

/-- A word reads only where its four bytes do (R24). -/
theorem Memory.read_of_readWord {m : Memory} {a : Addr} {w : Word} (h : m.readWord a = some w) {b : Nat} (hb : b < 4) :
    (m.read (a.toNat + b)).isSome := by
  unfold Memory.readWord at h
  split at h
  · split at h
    · next h0 h1 h2 h3 => interval_cases b <;> simp [h0, h1, h2, h3]
    · exact nomatch h
  · exact nomatch h

/-- A text that lists `n` consecutive addresses has at least `n` bytes: the addresses are distinct. -/
theorem Memory.le_length_of_addresses {m : Memory} {a n : Nat}
    (h : ∀ x, a ≤ x → x < a + n → x ∈ m.map Prod.fst) : n ≤ m.length := by
  have hsub : List.range' a n ⊆ m.map Prod.fst := fun x hx =>
    have ⟨hle, hlt⟩ := List.mem_range'_1.1 hx
    h x hle hlt
  simpa using (List.subperm_of_subset List.nodup_range' hsub).length_le

/-! ## The bytes that a run passes -/

/-- The text lists every byte that a run's `pc` passes: each of them is a byte of the word some step ran. -/
theorem run_passes_listed_bytes {k : Nat} {s t : State} (h : Host.Core.run Sys2Proof.core k s = .next t) {x : Nat}
    (hle : s.pc.toNat ≤ x) (hlt : x < s.pc.toNat + 4 * k) : x ∈ s.text.map Prod.fst := by
  obtain ⟨hend, hsteps⟩ := runIsStraightLine k s t h
  obtain ⟨j, b, hb, rfl⟩ : ∃ j b, b < 4 ∧ x = s.pc.toNat + 4 * j + b :=
    ⟨(x - s.pc.toNat) / 4, (x - s.pc.toNat) % 4, by omega, by omega⟩
  obtain ⟨_, _, _, _, hword, _⟩ := hsteps j (by omega)
  have hpc : (s.pc + BitVec.ofNat 64 (4 * j)).toNat = s.pc.toNat + 4 * j := by bv_omega
  exact Memory.mem_addresses_of_read (hpc ▸ Memory.read_of_readWord hword hb)

/-! ## The obligation -/

/-- Settles O49: the `pc` never wraps, so the `4 * k` bytes that `k` steps pass are distinct, and the text lists them
all. The premise that the text is canonical is not needed: a text that lists an address twice is only longer. -/
theorem runBoundedByText : Obligations.RunBoundedByText := fun _ _ _ _ h =>
  Memory.le_length_of_addresses fun _ => run_passes_listed_bytes h

end Sys2Proof.Machine

namespace Sys2Proof.Machine

/-! The instruction a test loads: the word that `withFetchWord` puts at the `pc` is the one the next step runs (R24,
R36). -/

/-! ## The loaded word -/

/-- The opcode table's number for a 32-bit word is the word itself. -/
@[simp] theorem tableWord_toNat (w : Word) : tableWord 32 w.toNat = w := by
  rw [tableWord, Nat.mod_eq_of_lt w.isLt, BitVec.ofNat_toNat, BitVec.setWidth_eq]

/-- A word loaded at an aligned `pc` is fetched next (R24). -/
theorem State.loadAtPc_fetch (s : State) (w : Word) (h : s.pc.toNat % 4 = 0) : (s.loadAtPc w).fetch = some w :=
  s.text.readWord_putWord_same w h

/-- A step runs the instruction whose word was loaded at an aligned `pc`: the load leaves a running state that is not
at `end_pc`, and the decoder gives the encoded instruction back. -/
theorem step_loadAtPc_encode (s : State) {i : Instr} (hi : i.wellFormed = true) (hpc : s.pc.toNat % 4 = 0) :
    step (s.loadAtPc (encode i)) = exec i (s.loadAtPc (encode i)) :=
  stepRunsDecodedInstruction _ (encode i) i (s.loadAtPc_outcome _) (s.loadAtPc_endPc_ne _)
    (s.loadAtPc_fetch (encode i) hpc) (decodeWord_encode i hi)

/-! ## The obligation -/

/-- Settles O6: `withFetchWord` loads the word of `i` itself, and a step runs what was loaded. -/
theorem loadedInstructionRunsNext : Obligations.LoadedInstructionRunsNext := by
  intro s i hi hpc
  rw [State.withFetchWord, tableWord_toNat]
  exact step_loadAtPc_encode s hi hpc

end Sys2Proof.Machine
